-- ==== Sys2Proof/Word.lean ====
section
/-! DEFINITION. The two bit-vector types of the block: the byte (00_scope.md R2) and the 16-bit word, which is an
operation word (R8), a checksum value (R3) or the STATUS word (10_state.md R25). -/

namespace Sys2Proof

/-- An 8-bit unsigned value (R2). -/
abbrev Byte := BitVec 8

/-- A 16-bit unsigned value: an operation word (R8, R80), a checksum (R3), the STATUS word (R25). -/
abbrev Word := BitVec 16

end Sys2Proof
end

