-- ==== Sys2Proof/Syntax.lean ====
section
/-! DEFINITION. The 13 operations of 30_encoding.md R81, one constructor per row of spec/opcode_table.json. The
operand of the six operations that take one is a plain byte (R80); the other seven take none (R82). Reset is not an
operation (R81): it is an input of the block (Machine/State.lean). -/

namespace Sys2Proof

/-- An operation of the block (R81). -/
inductive Instr where
  /-- CK_CLR (R110). -/
  | ckClr
  /-- CK_BYTE b (R111). -/
  | ckByte (b : Byte)
  /-- CK_READ (R112). -/
  | ckRead
  /-- ENC_LEN L (R133). -/
  | encLen (l : Byte)
  /-- ENC_CMD c (R134). -/
  | encCmd (c : Byte)
  /-- ENC_DATA d (R135). -/
  | encData (d : Byte)
  /-- ENC_ABORT (R136). -/
  | encAbort
  /-- DEC_BYTE b (R170). -/
  | decByte (b : Byte)
  /-- DEC_END (R171). -/
  | decEnd
  /-- DEC_CLR (R172). -/
  | decClr
  /-- SYNC_BYTE b (R198). -/
  | syncByte (b : Byte)
  /-- SYNC_ABORT (R199). -/
  | syncAbort
  /-- STAT_READ (R230). -/
  | statRead
  deriving DecidableEq, Repr

end Sys2Proof
end

