-- ==== Sys2Proof/Config.lean ====
section
/-! DEFINITION. The parameters of 00_scope.md section 4. Every one is fixed by the spec; none is left open, so there
is no free value here. -/

namespace Sys2Proof.Config

/-- The magic byte, byte 0 of every frame (R4). -/
def magic : Byte := 0x2A#8

/-- The longest payload in bytes (R5). -/
def maxPayload : Nat := 255

/-- Header bytes: magic, length, command (R6). -/
def hdr : Nat := 3

/-- Checksum bytes at a frame's end (R6). -/
def trl : Nat := 2

/-- The shortest frame in bytes (R6). -/
def minFrame : Nat := 5

/-- The longest frame in bytes (R6). -/
def maxFrame : Nat := 260

/-- Cells of the DEC buffer and of the SYNC buffer (R7, R50). -/
def bufCap : Nat := 260

end Sys2Proof.Config
end

