-- ==== Sys2Proof/WellFormed.lean ====
section
/-! DEFINITION. The well-formedness checks: an operation's operands, a payload the encoder may be given (R5), and the
size of a receive buffer (R7, R50). -/

namespace Sys2Proof

/-- Every term of `Instr` is a legal operation: an argument is a byte by its type, every byte is a legal argument (R72,
R73, R80), and an operation without an argument has no operand to be wrong. The illegal WORDS are the decoder's
matter (`legalWord` in Decode.lean, R82, R83). Log entry 14. -/
def Instr.wellFormed : Instr → Bool
  | .ckClr => true
  | .ckByte _ => true
  | .ckRead => true
  | .encLen _ => true
  | .encCmd _ => true
  | .encData _ => true
  | .encAbort => true
  | .decByte _ => true
  | .decEnd => true
  | .decClr => true
  | .syncByte _ => true
  | .syncAbort => true
  | .statRead => true

/-- A payload fits the one-byte length field (R5). -/
def payloadWf (p : List Byte) : Bool := decide (p.length ≤ Config.maxPayload)

/-- A byte sequence fits a receive buffer (R7, R50). -/
def fitsBuffer (s : List Byte) : Bool := decide (s.length ≤ Config.bufCap)

end Sys2Proof
end

