-- ==== Sys2Proof/Decode.lean ====
section
/-! DEFINITION. The operation word (30_encoding.md R80 to R83): its two fields, which words are legal, the decoder,
total on all 65536 words and rejecting by name, and the encoder written from the same opcode map (R81). -/

namespace Sys2Proof

/-- Bits 15:8 of an operation word (R80). -/
def opField (w : Word) : Byte := w.extractLsb' 8 8

/-- Bits 7:0 of an operation word (R80). -/
def argField (w : Word) : Byte := w.extractLsb' 0 8

/-- The operation word `op ‖ arg` (R80). -/
def opWord (op arg : Byte) : Word := op ++ arg

/-- The opcodes whose operation takes an argument (R81). -/
def takesArgument (op : Byte) : Bool :=
  [0x02#8, 0x10#8, 0x11#8, 0x12#8, 0x20#8, 0x30#8].contains op

/-- The opcodes whose operation takes no argument (R82). -/
def takesNoArgument (op : Byte) : Bool :=
  [0x01#8, 0x03#8, 0x13#8, 0x21#8, 0x22#8, 0x31#8, 0x40#8].contains op

/-- The legal words (R82, R83): an opcode with an argument and any argument byte, or an opcode without one and 0x00. -/
def legalWord (w : Word) : Bool :=
  takesArgument (opField w) || (takesNoArgument (opField w) && argField w == 0#8)

/-- Why a word is illegal. The block itself reports both the same way, as ILLEGAL_OP (R231). -/
inductive Illegal where
  /-- The opcode is not in the map of R81. -/
  | unassignedOpcode (op : Byte)
  /-- The opcode takes no argument and the argument is not 0x00 (R82). -/
  | nonzeroArgument (op arg : Byte)
  deriving DecidableEq, Repr

/-- What the decoder answers. -/
inductive Decoded where
  /-- A legal word and the operation it stands for. -/
  | instr (i : Instr)
  /-- An illegal word, rejected by name. -/
  | illegal (r : Illegal)
  deriving DecidableEq, Repr

/-- The operation of a no-argument opcode, if its argument is 0x00 (R82). -/
def decodeNoArg (i : Instr) (op arg : Byte) : Decoded :=
  if arg = 0#8 then .instr i else .illegal (.nonzeroArgument op arg)

/-- The opcode map of R81, with the argument checked as R82 says. -/
def decodeFields (op arg : Byte) : Decoded :=
  match op with
  | 0x01#8 => decodeNoArg .ckClr op arg
  | 0x02#8 => .instr (.ckByte arg)
  | 0x03#8 => decodeNoArg .ckRead op arg
  | 0x10#8 => .instr (.encLen arg)
  | 0x11#8 => .instr (.encCmd arg)
  | 0x12#8 => .instr (.encData arg)
  | 0x13#8 => decodeNoArg .encAbort op arg
  | 0x20#8 => .instr (.decByte arg)
  | 0x21#8 => decodeNoArg .decEnd op arg
  | 0x22#8 => decodeNoArg .decClr op arg
  | 0x30#8 => .instr (.syncByte arg)
  | 0x31#8 => decodeNoArg .syncAbort op arg
  | 0x40#8 => decodeNoArg .statRead op arg
  | _ => .illegal (.unassignedOpcode op)

/-- Decode an operation word. -/
def decode (w : Word) : Decoded := decodeFields (opField w) (argField w)

/-- The opcode of an operation (R81). -/
def Instr.opcode : Instr → Byte
  | .ckClr => 0x01#8
  | .ckByte _ => 0x02#8
  | .ckRead => 0x03#8
  | .encLen _ => 0x10#8
  | .encCmd _ => 0x11#8
  | .encData _ => 0x12#8
  | .encAbort => 0x13#8
  | .decByte _ => 0x20#8
  | .decEnd => 0x21#8
  | .decClr => 0x22#8
  | .syncByte _ => 0x30#8
  | .syncAbort => 0x31#8
  | .statRead => 0x40#8

/-- The argument byte of an operation, 0x00 for one that takes none (R82). -/
def Instr.argument : Instr → Byte
  | .ckClr => 0#8
  | .ckByte b => b
  | .ckRead => 0#8
  | .encLen l => l
  | .encCmd c => c
  | .encData d => d
  | .encAbort => 0#8
  | .decByte b => b
  | .decEnd => 0#8
  | .decClr => 0#8
  | .syncByte b => b
  | .syncAbort => 0#8
  | .statRead => 0#8

/-- The word of an operation (R80, R86). -/
def encode (i : Instr) : Word := opWord i.opcode i.argument

/-- The operation in a decoder's answer, if any. -/
def Decoded.instr? : Decoded → Option Instr
  | .instr i => some i
  | .illegal _ => none

/-- The word whose low `nbits` bits are `w` and whose other bits are 0. An operation word is one 16-bit value with no
byte order (20_memory.md R53), so the table's bit numbers are the word's own. Log entry 12. -/
def tableWord (nbits w : Nat) : Word := BitVec.ofNat 16 (w % 2 ^ nbits)

/-- The operation the decoder reads from a word numbered as spec/opcode_table.json numbers it. -/
def decodeTableWord (nbits w : Nat) : Option Instr := (decode (tableWord nbits w)).instr?

end Sys2Proof
end

