-- ==== Sys2Proof/Machine/State.lean ====
section
/-! DEFINITION. The state of the block (10_state.md section 1) as plain data, its output events (30_encoding.md R84),
the ways the model can stop, and the machine right after reset (70_reset_and_hazards.md R270). -/

namespace Sys2Proof.Machine

/-- The unit tags of an ERR event (R84). -/
inductive Src where
  | ck | enc | dec | sync | ctrl
  deriving DecidableEq, Repr

/-- The unit tags of an RXF event: the two units that decode frames (R84). -/
inductive RxSrc where
  | dec | sync
  deriving DecidableEq, Repr

/-- The info fields of an ERR event (R85). -/
inductive Info where
  /-- CK_EMPTY: no field. -/
  | none
  /-- One byte: `got` of INVALID_MAGIC, `n` of FRAME_TOO_SHORT, `b` of DEC_OVERFLOW. -/
  | byte (b : Byte)
  /-- INVALID_FRAME_LENGTH. -/
  | lengths (declared actual : Byte)
  /-- INVALID_CRC. -/
  | sums (expected computed : Word)
  /-- The operation word of ILLEGAL_OP and of SEQUENCE. -/
  | word (w : Word)
  deriving DecidableEq, Repr

/-- An output event (R84). -/
inductive Event where
  /-- One wire byte of an encoded frame. -/
  | tx (b : Byte)
  /-- A checksum value. -/
  | ckv (v : Word)
  /-- A received frame. -/
  | rxf (src : RxSrc) (cmd : Byte) (payload : List Byte)
  /-- An error, with its code and info of R85. -/
  | err (src : Src) (code : Byte) (info : Info)
  /-- The STATUS word. -/
  | stv (v : Word)
  deriving DecidableEq, Repr

/-- What the host does between two operations: issue an operation word (R80) or assert reset (R270). -/
inductive Input where
  | word (w : Word)
  | reset
  deriving DecidableEq, Repr

/-- The encoder's phases (R29). Code 3 is unreachable and not represented (log entry 8). -/
inductive EncState where
  | idle | haveLen | payload
  deriving DecidableEq, Repr

/-- The synchronizer's states (R28, R190). Codes 6 and 7 are unreachable and not represented (log entry 8). -/
inductive SyncState where
  | seeking | length | command | data | crcHigh | crcLow
  deriving DecidableEq, Repr

/-- The content of one receive buffer, cells 0 to n-1 in order (R22, R23, R50). The address of a byte is its position,
the count `n` is the length, and a cell at n or above has no value, so it is not there (log entry 4). -/
abbrev Memory := List Byte

/-- The checksum unit (R20). -/
structure CkUnit where
  acc : Word
  empty : Bool
  deriving DecidableEq, Repr

/-- The frame encoder unit (R21). -/
structure EncUnit where
  state : EncState
  len : Byte
  rem : Byte
  acc : Word
  deriving DecidableEq, Repr

/-- The frame decoder unit (R22). -/
structure DecUnit where
  buf : Memory
  deriving DecidableEq, Repr

/-- The stream synchronizer unit (R23). -/
structure SyncUnit where
  state : SyncState
  buf : Memory
  len : Byte
  cnt : Byte
  deriving DecidableEq, Repr

/-- `dec.n` (R22). -/
def DecUnit.n (u : DecUnit) : Nat := u.buf.length

/-- `sync.n` (R23). -/
def SyncUnit.n (u : SyncUnit) : Nat := u.buf.length

/-- The machine: the four units and the fault register of 10_state.md section 1, and two fields of the model's own,
the output stream and the host's pending inputs. -/
structure State where
  /-- CK (R20). -/
  ck : CkUnit
  /-- ENC (R21). -/
  enc : EncUnit
  /-- DEC (R22). -/
  dec : DecUnit
  /-- SYNC (R23). -/
  sync : SyncUnit
  /-- The sticky usage-fault bits of CTRL (R24). -/
  fault : BitVec 4
  /-- The MODEL's own: every event emitted so far, oldest first (R84, R58; log entry 2). -/
  events : List Event
  /-- The MODEL's own: what the host has issued and the block has not yet taken, next first (log entry 1). -/
  input : List Input
  deriving DecidableEq, Repr

/-- CK with no byte accumulated (R20, R110). -/
def CkUnit.cleared : CkUnit := { acc := 0#16, empty := true }

/-- The canonical idle encoder (R21). -/
def EncUnit.idle : EncUnit := { state := .idle, len := 0#8, rem := 0#8, acc := 0#16 }

/-- DEC with an empty buffer (R22). -/
def DecUnit.empty : DecUnit := { buf := [] }

/-- SYNC in SEEKING, with its canonical values (R23). -/
def SyncUnit.seeking : SyncUnit := { state := .seeking, buf := [], len := 0#8, cnt := 0#8 }

/-- The ways the machine stops. No rule of the spec stops it: usage faults (R243) and decode errors (R242) are events,
and the block goes on. -/
inductive Fault where
  /-- Raised by SYNC_BYTE where it would append outside the 260 cells of `sync.buf` (R50, R51). R204 says this does not
  happen in a reachable state. SAFE: the model stops where the spec has no state (log entry 5). -/
  | syncBufferOverrun
  deriving DecidableEq, Repr

/-- The ways the model refuses. -/
inductive Refusal where
  /-- Raised by an arm of `exec` whose instruction has no meaning yet; no arm is such. SAFE. -/
  | notModelled (mnemonic : String)
  deriving DecidableEq, Repr

/-- The machine right after reset (R270), with no event emitted and nothing pending (log entries 1 and 2). -/
def State.reset : State :=
  { ck := .cleared, enc := .idle, dec := .empty, sync := .seeking, fault := 0#4, events := [], input := [] }

end Sys2Proof.Machine
end

