-- ==== Sys2Proof/Machine/Flags.lean ====
section
/-! DEFINITION. The sticky fault bits (10_state.md R24), the numeric codes of the state machines (R28, R29) and the
STATUS word assembled from them (R25). -/

namespace Sys2Proof.Machine

/-- The usage faults with their info (R85, R240). -/
inductive UsageFault where
  | ckEmpty
  | illegalOp (word : Word)
  | sequence (word : Word)
  | decOverflow (b : Byte)
  deriving DecidableEq, Repr

/-- The bit of `fault` a usage fault sets (R24, R243). -/
def UsageFault.mask : UsageFault → BitVec 4
  | .ckEmpty => 0b0001#4
  | .illegalOp _ => 0b0010#4
  | .sequence _ => 0b0100#4
  | .decOverflow _ => 0b1000#4

/-- The code of a usage fault (R85). -/
def UsageFault.code : UsageFault → Byte
  | .ckEmpty => 0x10#8
  | .illegalOp _ => 0x11#8
  | .sequence _ => 0x12#8
  | .decOverflow _ => 0x13#8

/-- The info of a usage fault (R85). -/
def UsageFault.info : UsageFault → Info
  | .ckEmpty => .none
  | .illegalOp w => .word w
  | .sequence w => .word w
  | .decOverflow b => .byte b

/-- The `src` tag of a usage fault: CTRL for ILLEGAL_OP, otherwise the unit of the opcode (R85). -/
def UsageFault.src : UsageFault → Src
  | .ckEmpty => .ck
  | .illegalOp _ => .ctrl
  | .sequence _ => .enc
  | .decOverflow _ => .dec

/-- The encoding of `enc.state` (R29). -/
def EncState.code : EncState → BitVec 2
  | .idle => 0#2
  | .haveLen => 1#2
  | .payload => 2#2

/-- The encoding of `sync.state` (R28). -/
def SyncState.code : SyncState → BitVec 3
  | .seeking => 0#3
  | .length => 1#3
  | .command => 2#3
  | .data => 3#3
  | .crcHigh => 4#3
  | .crcLow => 5#3

/-- The STATUS word, from bit 15 down: five zeros, `sync.state`, a zero, `enc.state`, `ck.empty`, `fault` (R25). -/
def statusWord (s : State) : Word :=
  0b00000#5 ++ s.sync.state.code ++ 0#1 ++ s.enc.state.code ++ BitVec.ofBool s.ck.empty ++ s.fault

end Sys2Proof.Machine
end

