-- ==== Sys2Proof/Machine/Operands.lean ====
section
/-! DEFINITION. The operand forms and bit-field helpers of 00_scope.md section 5: zero extension, the byte swap, the
two bytes of a 16-bit value, in the wire's order (20_memory.md R53). There is one operand form, the plain byte (R80). -/

namespace Sys2Proof.Machine

/-- `zext_16(b)`. -/
def zext16 (b : Byte) : Word := b.zeroExtend 16

/-- `rotl_16(x, 8) = x[7:0] ‖ x[15:8]`. -/
def rotl8 (x : Word) : Word := x.extractLsb' 0 8 ++ x.extractLsb' 8 8

/-- `x[15:8]`. -/
def hiByte (x : Word) : Byte := x.extractLsb' 8 8

/-- `x[7:0]`. -/
def loByte (x : Word) : Byte := x.extractLsb' 0 8

/-- `hi ‖ lo`: two bytes of the wire read as one big-endian 16-bit value (R53, R75). -/
def bigEndian (hi lo : Byte) : Word := hi ++ lo

/-- A length or count as the byte that carries it (R72, R85). -/
def byteOfNat (n : Nat) : Byte := BitVec.ofNat 8 n

end Sys2Proof.Machine
end

