-- ==== Sys2Proof/Machine/Frame.lean ====
section
/-! DEFINITION. The functions of the frame format: the checksum (40_checksum.md section 1), `encode` (41_frame_encoder.md
R130) and `decode` (42_frame_decoder.md R160). -/

namespace Sys2Proof.Machine

/-- One update of the checksum accumulator (R100). -/
def ckStep (acc : Word) (b : Byte) : Word :=
  let t := rotl8 acc
  let t := t ^^^ zext16 b
  let t := t ^^^ (zext16 (loByte t) >>> 4)
  let t := t ^^^ (t <<< 12)
  t ^^^ (zext16 (loByte t) <<< 5)

/-- The checksum of the byte sequence `s0 :: rest` (R101). It takes a first byte, since the empty sequence has no
checksum (R102; log entry 11). -/
def checksum (s0 : Byte) (rest : List Byte) : Word := rest.foldl ckStep (zext16 s0)

/-- The wire bytes of a frame with command `cmd` and payload `p`, where `p` has at most 255 bytes (R130). A longer payload
cannot be encoded (R131); what this total function answers there, a length byte cut to eight bits, is a DESIGN CHOICE
(log entry 16). -/
def frameEncode (cmd : Byte) (p : List Byte) : List Byte :=
  let l := byteOfNat p.length
  let c := checksum Config.magic ([l, cmd] ++ p)
  [Config.magic, l, cmd] ++ p ++ [hiByte c, loByte c]

/-- The decode errors (R85, R240). -/
inductive DecodeError where
  | invalidMagic (got : Byte)
  | invalidFrameLength (declared actual : Byte)
  | invalidCrc (expected computed : Word)
  | frameTooShort (n : Byte)
  deriving DecidableEq, Repr

/-- What `decode` answers (R160). -/
inductive DecodeResult where
  | ok (cmd : Byte) (payload : List Byte)
  | err (e : DecodeError)
  deriving DecidableEq, Repr

/-- `decode` of R160: magic, then too short, then length, then checksum; the first check that fails gives the result
(R161 to R165, R244). The spec gives it for at most 260 bytes (log entry 6). -/
def frameDecode (s : List Byte) : DecodeResult :=
  match s with
  | [] => .err (.frameTooShort 0#8)
  | s0 :: rest =>
    if s0 ≠ Config.magic then .err (.invalidMagic s0)
    else if h : (s0 :: rest).length < Config.minFrame then .err (.frameTooShort (byteOfNat (s0 :: rest).length))
    else
      let n := (s0 :: rest).length
      have hn : 5 ≤ (s0 :: rest).length := Nat.le_of_not_lt h
      let declared := (s0 :: rest)[1]
      if declared.toNat ≠ n - 5 then .err (.invalidFrameLength declared (byteOfNat (n - 5)))
      else
        let expected := bigEndian ((s0 :: rest)[n - 2]) ((s0 :: rest)[n - 1])
        let computed := checksum s0 (rest.take (n - 3))
        if expected ≠ computed then .err (.invalidCrc expected computed)
        else .ok ((s0 :: rest)[2]) (((s0 :: rest).take (n - 2)).drop 3)

end Sys2Proof.Machine
end

