-- ==== Sys2Proof/Machine/Ops.lean ====
section
/-! DEFINITION. The named operations every meaning is written over: updates of the state, the buffer primitives
(20_memory.md R51), emitting events (30_encoding.md R84), raising a usage fault (60_exceptions.md R243, the block's one
form of exception; there is no return from it, R247), reset (70_reset_and_hazards.md R270), and taking the host's next
input. -/

namespace Sys2Proof.Machine

/-! ## Updates of the state -/

/-- The state with another CK unit. -/
def State.withCk (s : State) (u : CkUnit) : State := { s with ck := u }

/-- The state with another ENC unit. -/
def State.withEnc (s : State) (u : EncUnit) : State := { s with enc := u }

/-- The state with another DEC unit. -/
def State.withDec (s : State) (u : DecUnit) : State := { s with dec := u }

/-- The state with another SYNC unit. -/
def State.withSync (s : State) (u : SyncUnit) : State := { s with sync := u }

/-- `emit`, for the events of one operation in their order (R58, R84). -/
def State.emit (s : State) (es : List Event) : State := { s with events := s.events ++ es }

/-- The state with other pending inputs. -/
def State.withInput (s : State) (is : List Input) : State := { s with input := is }

/-! ## The receive buffers -/

/-- The form every buffer of a reachable state has: its addresses are the indices below its length, and none is
outside the 260 cells (R50). The list form is canonical: equal buffers are equal lists (log entry 4). -/
def Memory.wf (m : Memory) : Bool := fitsBuffer m

/-- The cells of a buffer that have a value, each with its address (R50). -/
def Memory.cells (m : Memory) : List Host.Cell := m.zipIdx.map fun c => (c.2, c.1)

/-- `BufAppend` (R51): the byte goes to cell `n`, if that is one of the 260 cells. -/
def bufAppend (m : Memory) (v : Byte) : Option Memory :=
  if m.length < Config.bufCap then some (m ++ [v]) else none

/-- `BufRead` (R51): cell `i`, which has a value when `i < n`. -/
def bufRead (m : Memory) (i : Nat) : Option Byte := m[i]?

/-! ## Reporting -/

/-- The code of a decode error (R85). -/
def DecodeError.code : DecodeError → Byte
  | .invalidMagic _ => 0x01#8
  | .invalidFrameLength _ _ => 0x02#8
  | .invalidCrc _ _ => 0x03#8
  | .frameTooShort _ => 0x04#8

/-- The info of a decode error (R85). -/
def DecodeError.info : DecodeError → Info
  | .invalidMagic got => .byte got
  | .invalidFrameLength declared actual => .lengths declared actual
  | .invalidCrc expected computed => .sums expected computed
  | .frameTooShort n => .byte n

/-- The ERR tag of a unit that decodes. -/
def RxSrc.src : RxSrc → Src
  | .dec => .dec
  | .sync => .sync

/-- The event by which a unit reports a decode result (R171, R196, R242). -/
def decodeEvent (u : RxSrc) : DecodeResult → Event
  | .ok cmd payload => .rxf u cmd payload
  | .err e => .err u.src e.code e.info

/-- The ERR event of a usage fault (R85). -/
def UsageFault.event (u : UsageFault) : Event := .err u.src u.code u.info

/-- `raise UsageFault`: one sticky bit, one ERR event, and no other change (R243). -/
def State.raiseUsageFault (s : State) (u : UsageFault) : State :=
  { s with fault := s.fault ||| u.mask, events := s.events ++ [u.event] }

/-! ## The host's inputs -/

/-- The reset input: every element of the block at its reset value; no event is emitted, none is withdrawn (R270), and
what the host has still to issue is not the block's (log entry 1). -/
def State.resetBlock (s : State) : State :=
  { State.reset with events := s.events, input := s.input }

/-- The effect of an illegal word (R231). -/
def illegalWord (w : Word) (s : State) : State := s.raiseUsageFault (.illegalOp w)

/-- The host's next input, and the state once the block has taken it (log entry 1). -/
def takeInput (s : State) : Option (Input × State) :=
  match s.input with
  | [] => none
  | i :: rest => some (i, s.withInput rest)

/-- The host issues an input before everything that is pending. -/
def State.issueFirst (s : State) (i : Input) : State := s.withInput (i :: s.input)

/-- The host issues inputs, in order, after everything that is pending (R58). -/
def State.issue (s : State) (is : List Input) : State := s.withInput (s.input ++ is)

/-- The unit an operation is addressed to (R81). -/
def unitOf : Instr → Src
  | .ckClr => .ck
  | .ckByte _ => .ck
  | .ckRead => .ck
  | .encLen _ => .enc
  | .encCmd _ => .enc
  | .encData _ => .enc
  | .encAbort => .enc
  | .decByte _ => .dec
  | .decEnd => .dec
  | .decClr => .dec
  | .syncByte _ => .sync
  | .syncAbort => .sync
  | .statRead => .ctrl

/-- The unit an event comes from (R84). -/
def Event.src : Event → Src
  | .tx _ => .enc
  | .ckv _ => .ck
  | .rxf u _ _ => u.src
  | .err u _ _ => u
  | .stv _ => .ctrl

end Sys2Proof.Machine
end

