-- ==== Sys2Proof/Machine/Checksum.lean ====
section
/-! DEFINITION. The operations of the checksum unit (40_checksum.md section 2). -/

namespace Sys2Proof.Machine

/-- CK_CLR (R110). -/
def execCkClr (s : State) : Host.Outcome State Fault Refusal := .next (s.withCk .cleared)

/-- CK_BYTE b (R111). -/
def execCkByte (b : Byte) (s : State) : Host.Outcome State Fault Refusal :=
  if s.ck.empty then .next (s.withCk { acc := zext16 b, empty := false })
  else .next (s.withCk { s.ck with acc := ckStep s.ck.acc b })

/-- CK_READ (R112). -/
def execCkRead (s : State) : Host.Outcome State Fault Refusal :=
  if s.ck.empty then .next (s.raiseUsageFault .ckEmpty)
  else .next (s.emit [.ckv s.ck.acc])

end Sys2Proof.Machine
end

