-- ==== Sys2Proof/Machine/Control.lean ====
section
/-! DEFINITION. The control operation (44_control.md R230). -/

namespace Sys2Proof.Machine

/-- STAT_READ (R230). -/
def execStatRead (s : State) : Host.Outcome State Fault Refusal := .next (s.emit [.stv (statusWord s)])

end Sys2Proof.Machine
end

