-- ==== Sys2Proof/Machine/Decoder.lean ====
section
/-! DEFINITION. The operations of the frame decoder (42_frame_decoder.md section 2). -/

namespace Sys2Proof.Machine

/-- DEC_BYTE b (R170): a full buffer drops the byte. -/
def execDecByte (b : Byte) (s : State) : Host.Outcome State Fault Refusal :=
  match bufAppend s.dec.buf b with
  | none => .next (s.raiseUsageFault (.decOverflow b))
  | some buf => .next (s.withDec { buf := buf })

/-- DEC_END (R171). -/
def execDecEnd (s : State) : Host.Outcome State Fault Refusal :=
  .next ((s.withDec .empty).emit [decodeEvent .dec (frameDecode s.dec.buf)])

/-- DEC_CLR (R172). -/
def execDecClr (s : State) : Host.Outcome State Fault Refusal := .next (s.withDec .empty)

end Sys2Proof.Machine
end

