-- ==== Sys2Proof/Machine/Encoder.lean ====
section
/-! DEFINITION. The operations of the frame encoder (41_frame_encoder.md section 2). -/

namespace Sys2Proof.Machine

/-- The two TX events of a frame's checksum, high byte first (R134, R135, R53). -/
def checksumTx (c : Word) : List Event := [.tx (hiByte c), .tx (loByte c)]

/-- An encoder operation out of order: SEQUENCE with its word as info (R133 to R135; log entry 10). -/
def outOfOrder (i : Instr) (s : State) : State := s.raiseUsageFault (.sequence (encode i))

/-- ENC_LEN L (R133). -/
def execEncLen (l : Byte) (s : State) : Host.Outcome State Fault Refusal :=
  if s.enc.state ≠ .idle then .next (outOfOrder (.encLen l) s)
  else .next (s.withEnc { s.enc with len := l, state := .haveLen })

/-- ENC_CMD c (R134). -/
def execEncCmd (c : Byte) (s : State) : Host.Outcome State Fault Refusal :=
  if s.enc.state ≠ .haveLen then .next (outOfOrder (.encCmd c) s)
  else
    let l := s.enc.len
    let acc := ckStep (ckStep (zext16 Config.magic) l) c
    let header := [Event.tx Config.magic, .tx l, .tx c]
    if l = 0#8 then .next ((s.withEnc .idle).emit (header ++ checksumTx acc))
    else .next ((s.withEnc { s.enc with acc := acc, rem := l, state := .payload }).emit header)

/-- ENC_DATA d (R135). -/
def execEncData (d : Byte) (s : State) : Host.Outcome State Fault Refusal :=
  if s.enc.state ≠ .payload then .next (outOfOrder (.encData d) s)
  else
    let acc := ckStep s.enc.acc d
    let rem := s.enc.rem - 1#8
    if rem = 0#8 then .next ((s.withEnc .idle).emit (.tx d :: checksumTx acc))
    else .next ((s.withEnc { s.enc with acc := acc, rem := rem }).emit [.tx d])

/-- ENC_ABORT (R136). -/
def execEncAbort (s : State) : Host.Outcome State Fault Refusal := .next (s.withEnc .idle)

end Sys2Proof.Machine
end

