-- ==== Sys2Proof/Machine/Synchronizer.lean ====
section
/-! DEFINITION. The stream synchronizer (43_synchronizer.md): one transition per state (R191 to R196) and the two SYNC
operations (R198, R199). -/

namespace Sys2Proof.Machine

/-- `BufAppend(sync, b)`, then `k` with the buffer it leaves. An append outside the 260 cells stops the model: no
reachable state does it (R204; log entry 5). -/
def syncAppend (b : Byte) (s : State) (k : Memory → State) : Host.Outcome State Fault Refusal :=
  match bufAppend s.sync.buf b with
  | none => .fault .syncBufferOverrun
  | some buf => .next (k buf)

/-- A byte in SEEKING (R191). -/
def syncSeeking (b : Byte) (s : State) : Host.Outcome State Fault Refusal :=
  if b = Config.magic then syncAppend b s fun buf => s.withSync { s.sync with buf := buf, state := .length }
  else .next (s.withSync { s.sync with buf := [] })

/-- The length byte (R192). -/
def syncLength (b : Byte) (s : State) : Host.Outcome State Fault Refusal :=
  syncAppend b s fun buf => s.withSync { s.sync with buf := buf, len := b, state := .command }

/-- The command byte (R193). -/
def syncCommand (b : Byte) (s : State) : Host.Outcome State Fault Refusal :=
  syncAppend b s fun buf =>
    s.withSync { s.sync with buf := buf, cnt := 0#8, state := if s.sync.len = 0#8 then .crcHigh else .data }

/-- A payload byte (R194). -/
def syncData (b : Byte) (s : State) : Host.Outcome State Fault Refusal :=
  let cnt := s.sync.cnt + 1#8
  syncAppend b s fun buf =>
    s.withSync { s.sync with buf := buf, cnt := cnt, state := if cnt = s.sync.len then .crcHigh else .data }

/-- The high checksum byte (R195). -/
def syncCrcHigh (b : Byte) (s : State) : Host.Outcome State Fault Refusal :=
  syncAppend b s fun buf => s.withSync { s.sync with buf := buf, state := .crcLow }

/-- The low checksum byte: the frame is complete, is decoded, and SYNC is back in SEEKING (R196, R197). -/
def syncCrcLow (b : Byte) (s : State) : Host.Outcome State Fault Refusal :=
  syncAppend b s fun buf => (s.withSync .seeking).emit [decodeEvent .sync (frameDecode buf)]

/-- SYNC_BYTE b (R198). -/
def execSyncByte (b : Byte) (s : State) : Host.Outcome State Fault Refusal :=
  match s.sync.state with
  | .seeking => syncSeeking b s
  | .length => syncLength b s
  | .command => syncCommand b s
  | .data => syncData b s
  | .crcHigh => syncCrcHigh b s
  | .crcLow => syncCrcLow b s

/-- SYNC_ABORT (R199). -/
def execSyncAbort (s : State) : Host.Outcome State Fault Refusal := .next (s.withSync .seeking)

end Sys2Proof.Machine
end

