-- ==== Sys2Proof/Machine/Dispatch.lean ====
section
/-! DEFINITION. The dispatch of an operation to its meaning, one arm per constructor (R81, R232). -/

namespace Sys2Proof.Machine

def exec (i : Instr) (s : State) : Host.Outcome State Fault Refusal :=
  match i with
  | .ckClr => Sys2Proof.Machine.execCkClr s
  | .ckByte b => Sys2Proof.Machine.execCkByte b s
  | .ckRead => Sys2Proof.Machine.execCkRead s
  | .encLen l => Sys2Proof.Machine.execEncLen l s
  | .encCmd c => Sys2Proof.Machine.execEncCmd c s
  | .encData d => Sys2Proof.Machine.execEncData d s
  | .encAbort => Sys2Proof.Machine.execEncAbort s
  | .decByte b => Sys2Proof.Machine.execDecByte b s
  | .decEnd => Sys2Proof.Machine.execDecEnd s
  | .decClr => Sys2Proof.Machine.execDecClr s
  | .syncByte b => Sys2Proof.Machine.execSyncByte b s
  | .syncAbort => Sys2Proof.Machine.execSyncAbort s
  | .statRead => Sys2Proof.Machine.execStatRead s

end Sys2Proof.Machine
end

