-- ==== Sys2Proof/Machine/Step.lean ====
section
/-! DEFINITION. One step: the block takes the host's next input and does it. -/

namespace Sys2Proof.Machine

/-- One step. A word is first checked for legality and only then dispatched (R232); an illegal word is R231's fault;
reset is R270. With nothing pending the block waits and nothing changes (R252, R280; log entry 3). -/
def step (s : State) : Host.Outcome State Fault Refusal :=
  match takeInput s with
  | none => .next s
  | some (.reset, s') => .next s'.resetBlock
  | some (.word w, s') =>
    match decode w with
    | .instr i => exec i s'
    | .illegal _ => .next (illegalWord w s')

/-- The state whose next step takes the word numbered as spec/opcode_table.json numbers it (log entries 1 and 12). -/
def State.withFetchWord (s : State) (nbits w : Nat) : State := s.issueFirst (.word (tableWord nbits w))

end Sys2Proof.Machine
end

