-- ==== Sys2Proof/Machine/Assembler.lean ====
section
/-! DEFINITION. The assembly syntax of 30_encoding.md R86: mnemonics, the pseudo-operations SEND, FEED and DECODE with
their expansions, the `.word` directive, one operation a line, `;` for comments. Lexical detail the rule leaves out is
fixed in log entry 13. Text is a list of characters. -/

namespace Sys2Proof.Machine

/-- The name of an operation (R81). -/
def mnemonic : Instr → List Char
  | .ckClr => "CK_CLR".toList
  | .ckByte _ => "CK_BYTE".toList
  | .ckRead => "CK_READ".toList
  | .encLen _ => "ENC_LEN".toList
  | .encCmd _ => "ENC_CMD".toList
  | .encData _ => "ENC_DATA".toList
  | .encAbort => "ENC_ABORT".toList
  | .decByte _ => "DEC_BYTE".toList
  | .decEnd => "DEC_END".toList
  | .decClr => "DEC_CLR".toList
  | .syncByte _ => "SYNC_BYTE".toList
  | .syncAbort => "SYNC_ABORT".toList
  | .statRead => "STAT_READ".toList

/-- What one line of assembly says (R86). -/
inductive Line where
  | op (i : Instr)
  | send (cmd : Byte) (p : List Byte)
  | feed (bs : List Byte)
  | decodeSeq (bs : List Byte)
  | rawWord (w : Word)
  deriving DecidableEq, Repr

/-- SEND's expansion (R86), for a payload of at most 255 bytes; the length byte of a longer one is a DESIGN CHOICE (log
entry 16), which `Line.words` never reaches. -/
def sendOps (cmd : Byte) (p : List Byte) : List Instr :=
  .encLen (BitVec.ofNat 8 p.length) :: .encCmd cmd :: p.map .encData

/-- FEED's expansion (R86). -/
def feedOps (bs : List Byte) : List Instr := bs.map .syncByte

/-- DECODE's expansion (R86). -/
def decodeOps (bs : List Byte) : List Instr := bs.map .decByte ++ [.decEnd]

/-- The words a line stands for. SEND needs a payload of at most 255 bytes (R86). -/
def Line.words : Line → Option (List Word)
  | .op i => some [encode i]
  | .send cmd p => if payloadWf p then some ((sendOps cmd p).map encode) else none
  | .feed bs => some ((feedOps bs).map encode)
  | .decodeSeq bs => some ((decodeOps bs).map encode)
  | .rawWord w => some [w]

/-- The tokens of a line. -/
inductive Token where
  | text (cs : List Char)
  | comma
  | openBracket
  | closeBracket
  deriving DecidableEq, Repr

/-- End the run of characters `cur`, kept last first, before the tokens that follow. -/
def flushText (cur : List Char) (ts : List Token) : List Token :=
  if cur = [] then ts else .text cur.reverse :: ts

/-- The tokens of a line up to a comment; `cur` is the run of characters being read, last first. -/
def lex : List Char → List Char → List Token
  | [], cur => flushText cur []
  | c :: cs, cur =>
    if c = ';' then flushText cur []
    else if c = ' ' ∨ c = '\t' then flushText cur (lex cs [])
    else if c = ',' then flushText cur (.comma :: lex cs [])
    else if c = '[' then flushText cur (.openBracket :: lex cs [])
    else if c = ']' then flushText cur (.closeBracket :: lex cs [])
    else lex cs (c :: cur)

/-- The value of a decimal digit. -/
def decimalDigit (c : Char) : Option Nat :=
  if '0'.toNat ≤ c.toNat ∧ c.toNat ≤ '9'.toNat then some (c.toNat - '0'.toNat) else none

/-- The value of a hexadecimal digit, in either case of letter. -/
def hexDigit (c : Char) : Option Nat :=
  if 'A'.toNat ≤ c.toNat ∧ c.toNat ≤ 'F'.toNat then some (c.toNat - 'A'.toNat + 10)
  else if 'a'.toNat ≤ c.toNat ∧ c.toNat ≤ 'f'.toNat then some (c.toNat - 'a'.toNat + 10)
  else decimalDigit c

/-- The number a list of digits writes in a base, after the digits whose value is `acc`. -/
def digitsFrom (base : Nat) (digit : Char → Option Nat) : List Char → Nat → Option Nat
  | [], acc => some acc
  | c :: cs, acc =>
    match digit c with
    | none => none
    | some d => digitsFrom base digit cs (base * acc + d)

/-- A number of exactly `width` hexadecimal digits after `0x`. -/
def hexNumber (width : Nat) (cs : List Char) : Option Nat :=
  match cs with
  | '0' :: 'x' :: ds => if ds.length = width then digitsFrom 16 hexDigit ds 0 else none
  | _ => none

/-- A byte argument: `0xHH`, or decimal (R86). -/
def byteLiteral (cs : List Char) : Option Byte :=
  match hexNumber 2 cs with
  | some n => some (BitVec.ofNat 8 n)
  | none =>
    match cs with
    | [] => none
    | _ :: _ =>
      match digitsFrom 10 decimalDigit cs 0 with
      | some n => if n ≤ 255 then some (BitVec.ofNat 8 n) else none
      | none => none

/-- A raw word: `0xHHHH` (R86). -/
def wordLiteral (cs : List Char) : Option Word := (hexNumber 4 cs).map (BitVec.ofNat 16)

/-- The operation of a mnemonic with no operand (R82, R86). -/
def noArgOp (m : List Char) : Option Instr :=
  [.ckClr, .ckRead, .encAbort, .decEnd, .decClr, .syncAbort, .statRead].find? fun i => decide (mnemonic i = m)

/-- The operation of a mnemonic with an operand (R81, R86). -/
def argOp (m : List Char) (b : Byte) : Option Instr :=
  [.ckByte b, .encLen b, .encCmd b, .encData b, .decByte b, .syncByte b].find? fun i => decide (mnemonic i = m)

/-- The bytes of a bracketed list after its opening bracket, up to the end of the line. -/
def byteList : List Token → Option (List Byte)
  | [.text t, .closeBracket] => (byteLiteral t).map ([·])
  | .text t :: .comma :: ts =>
    match byteLiteral t, byteList ts with
    | some b, some bs => some (b :: bs)
    | _, _ => none
  | _ => none

/-- The bytes of a bracketed list, which may be empty. -/
def bracketed : List Token → Option (List Byte)
  | [.openBracket, .closeBracket] => some []
  | .openBracket :: ts => byteList ts
  | _ => none

/-- The line a list of tokens writes. -/
def parseTokens : List Token → Option Line
  | [.text m] => (noArgOp m).map .op
  | [.text m, .text a] =>
    if m = ".word".toList then (wordLiteral a).map .rawWord
    else
      match byteLiteral a with
      | some b => (argOp m b).map .op
      | none => none
  | .text m :: .text a :: .comma :: ts =>
    if m = "SEND".toList then
      match byteLiteral a, bracketed ts with
      | some c, some p => some (.send c p)
      | _, _ => none
    else none
  | .text m :: ts =>
    if m = "FEED".toList then (bracketed ts).map .feed
    else if m = "DECODE".toList then (bracketed ts).map .decodeSeq
    else none
  | _ => none

/-- The words of one line of text: none for a blank line or a comment, and no answer for a line that is not of the
syntax (R86). -/
def assembleLine (cs : List Char) : Option (List Word) :=
  match lex cs [] with
  | [] => some []
  | ts =>
    match parseTokens ts with
    | some l => l.words
    | none => none

/-- The words of a program, line after line (R86). -/
def assemble : List (List Char) → Option (List Word)
  | [] => some []
  | l :: ls =>
    match assembleLine l, assemble ls with
    | some ws, some rest => some (ws ++ rest)
    | _, _ => none

/-- One hexadecimal digit. -/
def hexChar (n : Nat) : Char := if n < 10 then Char.ofNat ('0'.toNat + n) else Char.ofNat ('A'.toNat + (n - 10))

/-- A byte written `0xHH` (R86). -/
def byteText (b : Byte) : List Char := ['0', 'x', hexChar (b.toNat / 16), hexChar (b.toNat % 16)]

/-- The opcodes' operands as they are written: the seven no-argument mnemonics take none (R86). -/
def operandText (i : Instr) : List Char :=
  if takesArgument i.opcode then ' ' :: byteText i.argument else []

/-- An operation as a line of assembly (R86). -/
def render (i : Instr) : List Char := mnemonic i ++ operandText i

end Sys2Proof.Machine
end

