-- ==== Sys2Proof/Safety.lean ====
section
/-! DEFINITION. The terms the statements use: the invariants of 10_state.md R30 and R31, runs of operations and of
inputs (70_reset_and_hazards.md R280), and what a run emits. -/

namespace Sys2Proof.Machine

/-! ## Invariants -/

/-- R31 for CK: `ck.empty = 1` implies `ck.acc = 0`. -/
def CkUnit.inv (u : CkUnit) : Bool := !u.empty || u.acc == 0#16

/-- R31 for ENC. -/
def EncUnit.inv (u : EncUnit) : Bool :=
  match u.state with
  | .idle => u.len == 0#8 && u.rem == 0#8 && u.acc == 0#16
  | .haveLen => u.rem == 0#8 && u.acc == 0#16
  | .payload => decide (1 ≤ u.rem.toNat ∧ u.rem.toNat ≤ u.len.toNat)

/-- R31 for DEC: `dec.n <= 260`. -/
def DecUnit.inv (u : DecUnit) : Bool := u.buf.wf

/-- The buffer of a frame in progress begins with the magic byte and, after it, `sync.len` (R191, R192). -/
def SyncUnit.headerOk (u : SyncUnit) : Bool := u.buf[0]? == some Config.magic && u.buf[1]? == some u.len

/-- R30's table. What it says of `sync.buf[0]` in LENGTH and of `sync.buf[1]` in COMMAND is kept for the later states
too, and `sync.len`, `sync.cnt` are 0 until they are written: R203 rests on the first. -/
def SyncUnit.inv (u : SyncUnit) : Bool :=
  match u.state with
  | .seeking => u.n == 0 && u.len == 0#8 && u.cnt == 0#8
  | .length => u.n == 1 && u.buf[0]? == some Config.magic && u.len == 0#8 && u.cnt == 0#8
  | .command => u.n == 2 && u.headerOk && u.cnt == 0#8
  | .data => u.n == 3 + u.cnt.toNat && u.headerOk && decide (1 ≤ u.len.toNat ∧ u.cnt.toNat < u.len.toNat)
  | .crcHigh => u.n == 3 + u.len.toNat && u.headerOk && u.cnt == u.len
  | .crcLow => u.n == 4 + u.len.toNat && u.headerOk && u.cnt == u.len

/-- R30 and R31 together. -/
def State.inv (s : State) : Bool := s.ck.inv && s.enc.inv && s.dec.inv && s.sync.inv

/-! ## Runs -/

/-- Operations one after the other, stopping at a fault or a refusal (R58). -/
def execAll : List Instr → State → Host.Outcome State Fault Refusal
  | [], s => .next s
  | i :: is, s =>
    match exec i s with
    | .next s' => execAll is s'
    | .fault r => .fault r
    | .refused r => .refused r

/-- `k` steps, stopping at a fault or a refusal. -/
def steps : Nat → State → Host.Outcome State Fault Refusal
  | 0, s => .next s
  | k + 1, s =>
    match step s with
    | .next s' => steps k s'
    | .fault r => .fault r
    | .refused r => .refused r

/-- A run (R280): from reset, a finite sequence of inputs the host issues, all of them taken. Its result is the events
and the end state. -/
def runInputs (is : List Input) : Host.Outcome State Fault Refusal := steps is.length (State.reset.issue is)

/-- The next state of an outcome, if there is one. -/
def nextOf : Host.Outcome State Fault Refusal → Option State
  | .next s => some s
  | .fault _ => none
  | .refused _ => none

/-! ## What a run emits -/

/-- The wire byte of a TX event. -/
def Event.txByte? : Event → Option Byte
  | .tx b => some b
  | .ckv _ => none
  | .rxf _ _ _ => none
  | .err _ _ _ => none
  | .stv _ => none

/-- The event is an ERR event. -/
def Event.isErr : Event → Bool
  | .err _ _ _ => true
  | .tx _ => false
  | .ckv _ => false
  | .rxf _ _ _ => false
  | .stv _ => false

/-- The events that come from one unit, in order (R84). -/
def eventsOf (u : Src) (es : List Event) : List Event := es.filter fun e => decide (e.src = u)

/-- The operations addressed to one unit, in order (R59, R81). -/
def opsOf (u : Src) (is : List Instr) : List Instr := is.filter fun i => decide (unitOf i = u)

/-- The events `t` has beyond those of `s`. -/
def newEvents (s t : State) : List Event := t.events.drop s.events.length

/-- Two states agree on what the operations of a unit may read (R27): the unit's own elements, and for CTRL the STATUS
word, which reads across units. -/
def sameUnit (u : Src) (s t : State) : Prop :=
  match u with
  | .ck => s.ck = t.ck
  | .enc => s.enc = t.enc
  | .dec => s.dec = t.dec
  | .sync => s.sync = t.sync
  | .ctrl => statusWord s = statusWord t

/-- The block with none of its usage-fault bits set: a run without a usage fault ends so (R243). -/
def State.noUsageFault (s : State) : Bool := s.fault == 0#4

end Sys2Proof.Machine
end

