-- ==== Sys2Proof/Certificates/Slice0/Obligations.lean ====
section
/-! DEFINITION. The statements for the provers, in the order of the spec's files. "The events" of a state are the model's
record of the block's output stream (log entry 2) and "the input" its record of what the host has issued (log entry
1). -/

open Sys2Proof Sys2Proof.Machine

/-! ## State, invariants, reset -/

/-- The machine after reset holds the values of R270's table, and its STATUS word is 0x0010 (R25). -/
def Obligations.ResetStateHoldsResetValues : Prop :=
  State.reset.ck.acc = 0x0000#16 ∧ State.reset.ck.empty = true ∧
  State.reset.enc.state = .idle ∧ State.reset.enc.len = 0x00#8 ∧ State.reset.enc.rem = 0x00#8 ∧
  State.reset.enc.acc = 0x0000#16 ∧ State.reset.dec.n = 0 ∧ State.reset.sync.state = .seeking ∧
  State.reset.sync.n = 0 ∧ State.reset.sync.len = 0x00#8 ∧ State.reset.sync.cnt = 0x00#8 ∧
  State.reset.fault = 0b0000#4 ∧ statusWord State.reset = 0x0010#16

/-- R270: reset, asserted in any state, sets every element to its reset value (no cell of a buffer has a value), emits
no event and withdraws none; nothing else the host does clears a fault bit. -/
def Obligations.ResetInputRestoresEveryElement : Prop :=
  (∀ (s : State) (rest : List Input), s.input = .reset :: rest →
    ∃ t, step s = .next t ∧
      t.ck.acc = 0x0000#16 ∧ t.ck.empty = true ∧
      t.enc.state = .idle ∧ t.enc.len = 0x00#8 ∧ t.enc.rem = 0x00#8 ∧ t.enc.acc = 0x0000#16 ∧
      t.dec.n = 0 ∧ (∀ i, bufRead t.dec.buf i = none) ∧
      t.sync.state = .seeking ∧ t.sync.n = 0 ∧ t.sync.len = 0x00#8 ∧ t.sync.cnt = 0x00#8 ∧
      (∀ i, bufRead t.sync.buf i = none) ∧
      t.fault = 0b0000#4 ∧ statusWord t = 0x0010#16 ∧ t.events = s.events ∧ t.input = rest) ∧
  (∀ s t : State, s.input.head? ≠ some .reset → step s = .next t → s.fault &&& t.fault = s.fault)

/-- The invariant of R30 and R31 holds at reset. -/
def Obligations.InvariantHoldsAtReset : Prop := State.reset.inv = true

/-- The invariant of R30 and R31 is kept by every step, from every state that has it. -/
def Obligations.EveryStepKeepsInvariant : Prop :=
  ∀ s t : State, s.inv = true → step s = .next t → t.inv = true

/-- Every finite sequence of inputs runs to its end from reset (the buffer never overflows, R204, and every operation
completes, R279), and there the tables of R30 and R31 hold. It follows from the invariant: at reset, kept by every step,
and no step stops under it. -/
def Obligations.ReachableStatesSatisfyTables : Prop :=
  ∀ is : List Input, ∃ t, runInputs is = .next t ∧
    (match t.sync.state with
      | .seeking => t.sync.n = 0 ∧ t.sync.len = 0#8 ∧ t.sync.cnt = 0#8
      | .length => t.sync.n = 1 ∧ bufRead t.sync.buf 0 = some 0x2A#8
      | .command => t.sync.n = 2 ∧ bufRead t.sync.buf 0 = some 0x2A#8 ∧ bufRead t.sync.buf 1 = some t.sync.len
      | .data => t.sync.n = 3 + t.sync.cnt.toNat ∧ 1 ≤ t.sync.len.toNat ∧ t.sync.cnt.toNat < t.sync.len.toNat
      | .crcHigh => t.sync.n = 3 + t.sync.len.toNat ∧ t.sync.cnt = t.sync.len
      | .crcLow => t.sync.n = 4 + t.sync.len.toNat ∧ t.sync.cnt = t.sync.len) ∧
    t.sync.n ≤ 259 ∧
    (match t.enc.state with
      | .idle => t.enc.len = 0#8 ∧ t.enc.rem = 0#8 ∧ t.enc.acc = 0#16
      | .haveLen => t.enc.rem = 0#8 ∧ t.enc.acc = 0#16
      | .payload => 1 ≤ t.enc.rem.toNat ∧ t.enc.rem.toNat ≤ t.enc.len.toNat) ∧
    t.dec.n ≤ 260 ∧
    (t.ck.empty = true → t.ck.acc = 0x0000#16)

/-- From a state with the invariant every step answers a next state: no operation word and no reset stops the block,
and the buffers do not overflow (R204, R279). -/
def Obligations.EveryStepCompletesUnderInvariant : Prop :=
  ∀ s : State, s.inv = true → ∃ t, step s = .next t

/-! ## Operation words and the step -/

/-- R232: a step at a legal word runs the operation the word decodes to, with the word taken from the input. -/
def Obligations.StepRunsDecodedOperation : Prop :=
  ∀ (s : State) (w : Word) (rest : List Input) (i : Instr),
    s.input = .word w :: rest → decode w = .instr i → i.wellFormed = true →
    step s = exec i { s with input := rest }

/-- With nothing pending a step changes nothing: the model's choice of log entry 3. -/
def Obligations.StepWithoutInputWaits : Prop :=
  ∀ s : State, s.input = [] → step s = .next s

/-- R231: a word whose opcode is not in the map, or whose opcode takes no argument and whose argument is not 0x00, sets
fault bit 1 and emits ILLEGAL_OP with the word, and no unit changes. -/
def Obligations.IllegalWordRaisesIllegalOp : Prop :=
  ∀ (s : State) (w : Word) (rest : List Input), s.input = .word w :: rest →
    (opField w ∉ [0x01#8, 0x02, 0x03, 0x10, 0x11, 0x12, 0x13, 0x20, 0x21, 0x22, 0x30, 0x31, 0x40] ∨
      (opField w ∈ [0x01#8, 0x03, 0x13, 0x21, 0x22, 0x31, 0x40] ∧ argField w ≠ 0x00#8)) →
    step s = .next { s with
      input := rest
      fault := s.fault ||| 0b0010#4
      events := s.events ++ [.err .ctrl 0x11#8 (.word w)] }

/-- R82: a no-argument word with a nonzero argument does nothing but raise ILLEGAL_OP; the legal words are exactly
those with one of six opcodes, or one of seven and argument 0x00; there are 1543 of them. -/
def Obligations.LegalWordsAreExactly1543 : Prop :=
  (∀ w : Word, (∃ i, decode w = .instr i) ↔
    (opField w ∈ [0x02#8, 0x10, 0x11, 0x12, 0x20, 0x30] ∨
      (opField w ∈ [0x01#8, 0x03, 0x13, 0x21, 0x22, 0x31, 0x40] ∧ argField w = 0x00#8))) ∧
  (∀ (s : State) (op arg : Byte) (rest : List Input), s.input = .word (op ++ arg) :: rest →
    op ∈ [0x01#8, 0x03, 0x13, 0x21, 0x22, 0x31, 0x40] → arg ≠ 0x00#8 →
    step s = .next { s with
      input := rest
      fault := s.fault ||| 0b0010#4
      events := s.events ++ [.err .ctrl 0x11#8 (.word (op ++ arg))] }) ∧
  ((List.range 256).map fun op => (List.range 256).countP fun arg =>
    (decode (BitVec.ofNat 8 op ++ BitVec.ofNat 8 arg)).instr?.isSome).sum = 1543

/-- R81: each opcode selects its operation, and every opcode not in the map is illegal. -/
def Obligations.OpcodeMapDecodes : Prop :=
  decode 0x0100#16 = .instr .ckClr ∧
  (∀ b : Byte, decode (0x02#8 ++ b) = .instr (.ckByte b)) ∧
  decode 0x0300#16 = .instr .ckRead ∧
  (∀ l : Byte, decode (0x10#8 ++ l) = .instr (.encLen l)) ∧
  (∀ c : Byte, decode (0x11#8 ++ c) = .instr (.encCmd c)) ∧
  (∀ d : Byte, decode (0x12#8 ++ d) = .instr (.encData d)) ∧
  decode 0x1300#16 = .instr .encAbort ∧
  (∀ b : Byte, decode (0x20#8 ++ b) = .instr (.decByte b)) ∧
  decode 0x2100#16 = .instr .decEnd ∧
  decode 0x2200#16 = .instr .decClr ∧
  (∀ b : Byte, decode (0x30#8 ++ b) = .instr (.syncByte b)) ∧
  decode 0x3100#16 = .instr .syncAbort ∧
  decode 0x4000#16 = .instr .statRead ∧
  (∀ op arg : Byte,
    op ∉ [0x01#8, 0x02, 0x03, 0x10, 0x11, 0x12, 0x13, 0x20, 0x21, 0x22, 0x30, 0x31, 0x40] →
    ∃ r, decode (op ++ arg) = .illegal r)

/-- Words of every family, written out from R80 and R81, decode to the operation they stand for. -/
def Obligations.SampleWordsDecode : Prop :=
  decode 0b0000001000101010#16 = .instr (.ckByte 0x2A) ∧
  decode 0b0001000100011011#16 = .instr (.encCmd 0x1B) ∧
  decode 0b0010000100000000#16 = .instr .decEnd ∧
  decode 0b0011000011111111#16 = .instr (.syncByte 0xFF) ∧
  decode 0b0100000000000000#16 = .instr .statRead

/-- Decode and encode agree both ways: a well-formed operation's word decodes to it, and a word that decodes is the
word of what it decodes to, so no bit of a legal word is dropped. -/
def Obligations.DecodeInvertsEncode : Prop :=
  (∀ i : Instr, i.wellFormed = true → decode (encode i) = .instr i) ∧
  (∀ (w : Word) (i : Instr), decode w = .instr i → encode i = w)

/-- The assembler gives every operation, written as R86 writes it, its one word; the lexical detail is the model's
choice of log entry 13. -/
def Obligations.AssembledOperationIsItsWord : Prop :=
  ∀ i : Instr, i.wellFormed = true → assembleLine (render i) = some [encode i]

/-- The pseudo-operations expand to the words R86 gives, and `.word` places its word, legal or not. -/
def Obligations.PseudoOperationsExpand : Prop :=
  (∀ (cmd : Byte) (p : List Byte), p.length ≤ 255 →
    (Line.send cmd p).words =
      some ((0x10#8 ++ BitVec.ofNat 8 p.length) :: (0x11#8 ++ cmd) :: p.map (fun b => 0x12#8 ++ b))) ∧
  (∀ bs : List Byte, (Line.feed bs).words = some (bs.map (fun b => 0x30#8 ++ b))) ∧
  (∀ bs : List Byte, (Line.decodeSeq bs).words = some (bs.map (fun b => 0x20#8 ++ b) ++ [0x2100#16])) ∧
  (∀ w : Word, (Line.rawWord w).words = some [w])

/-! ## The wire frame and the checksum -/

/-- R100: the checksum step is the rule's pseudocode in the source's own form, three adjustments after a byte swap and
an exclusive or. -/
def Obligations.CkStepIsSourceForm : Prop :=
  ∀ (acc : Word) (b : Byte),
    let t0 := acc.rotateLeft 8
    let t1 := t0 ^^^ b.zeroExtend 16
    let t2 := t1 ^^^ ((t1 &&& 0x00FF#16) >>> 4)
    let t3 := t2 ^^^ ((t2 <<< 8) <<< 4)
    let t4 := t3 ^^^ (((t3 &&& 0x00FF#16) <<< 4) <<< 1)
    ckStep acc b = t4

/-- R104: the checksum's arithmetic laws. The step is linear over exclusive or, a bijection of the accumulator and
injective in the byte, so a change to one byte after the first changes the checksum. -/
def Obligations.ChecksumArithmeticLaws : Prop :=
  (∀ (a a' : Word) (b b' : Byte), ckStep (a ^^^ a') (b ^^^ b') = ckStep a b ^^^ ckStep a' b') ∧
  (∀ b : Byte, checksum b [] = b.zeroExtend 16) ∧
  (∀ a : Byte, checksum a [0x00#8] = a ++ 0x00#8) ∧
  (∀ k : Nat, checksum 0x00#8 (List.replicate k 0x00#8) = 0x0000#16) ∧
  (∀ b : Byte, Function.Bijective (fun acc => ckStep acc b)) ∧
  (∀ acc : Word, Function.Injective (ckStep acc)) ∧
  (∀ (s0 x y : Byte) (pre post : List Byte), x ≠ y →
    checksum s0 (pre ++ x :: post) ≠ checksum s0 (pre ++ y :: post)) ∧
  checksum 0x00#8 [0x01#8] = 0x1021#16 ∧ checksum 0x01#8 [] = 0x0001#16

/-- R70 and R75: the layout of an encoded frame, byte by byte; its checksum field is big-endian and covers every byte
before it. -/
def Obligations.EncodedFrameHasWireLayout : Prop :=
  ∀ (cmd : Byte) (p : List Byte), p.length ≤ 255 →
    let f := frameEncode cmd p
    let c := checksum 0x2A#8 (([BitVec.ofNat 8 p.length, cmd] : List Byte) ++ p)
    f.length = p.length + 5 ∧
    f[0]? = some 0x2A#8 ∧ (∃ l, f[1]? = some l ∧ l.toNat = p.length) ∧ f[2]? = some cmd ∧
    (∀ i, i < p.length → f[3 + i]? = p[i]?) ∧
    (∃ hi lo, f[3 + p.length]? = some hi ∧ f[4 + p.length]? = some lo ∧ hi ++ lo = c) ∧
    f.take (3 + p.length) = 0x2A#8 :: ([BitVec.ofNat 8 p.length, cmd] ++ p)

/-! ## CK -/

/-- R110: CK_CLR, word 0x0100, clears the unit and changes nothing else. -/
def Obligations.CkClrClearsUnit : Prop :=
  encode .ckClr = 0x0100#16 ∧
  ∀ s : State, exec .ckClr s = .next { s with ck := { acc := 0x0000#16, empty := true } }

/-- R111: CK_BYTE b, word 0x0200 | b, loads the first byte and steps a later one; it emits nothing and changes nothing
else. -/
def Obligations.CkByteAccumulates : Prop :=
  (∀ b : Byte, encode (.ckByte b) = 0x0200#16 ||| b.zeroExtend 16) ∧
  ∀ (s : State) (b : Byte), exec (.ckByte b) s =
    .next { s with ck := { acc := if s.ck.empty = true then b.zeroExtend 16 else ckStep s.ck.acc b, empty := false } }

/-- R112: CK_READ, word 0x0300, emits the accumulator, or raises CK_EMPTY when there is no byte; it changes no CK
state. -/
def Obligations.CkReadReportsOrFaults : Prop :=
  encode .ckRead = 0x0300#16 ∧
  (∀ s : State, s.ck.empty = false → exec .ckRead s = .next { s with events := s.events ++ [.ckv s.ck.acc] }) ∧
  (∀ s : State, s.ck.empty = true → exec .ckRead s =
    .next { s with fault := s.fault ||| 0b0001#4, events := s.events ++ [.err .ck 0x10#8 .none] })

/-- R113: from any state, CK_CLR, the bytes of a sequence and CK_READ emit exactly that sequence's checksum; with no
byte they raise CK_EMPTY. -/
def Obligations.CkRunEmitsChecksum : Prop :=
  (∀ (s : State) (b : Byte) (bs : List Byte),
    execAll (.ckClr :: .ckByte b :: bs.map .ckByte ++ [.ckRead]) s =
      .next { s with
        ck := { acc := checksum b bs, empty := false }
        events := s.events ++ [.ckv (checksum b bs)] }) ∧
  (∀ s : State, execAll [.ckClr, .ckRead] s =
    .next { s with
      ck := { acc := 0#16, empty := true }
      fault := s.fault ||| 0b0001#4
      events := s.events ++ [.err .ck 0x10#8 .none] })

/-! ## ENC -/

/-- R133: ENC_LEN L, word 0x1000 | L, announces the length in IDLE; elsewhere it raises SEQUENCE and leaves the frame
in progress as it was. -/
def Obligations.EncLenAnnouncesLength : Prop :=
  (∀ l : Byte, encode (.encLen l) = 0x1000#16 ||| l.zeroExtend 16) ∧
  (∀ (s : State) (l : Byte), s.enc.state = .idle →
    exec (.encLen l) s = .next { s with enc := { s.enc with state := .haveLen, len := l } }) ∧
  (∀ (s : State) (l : Byte), s.enc.state ≠ .idle →
    exec (.encLen l) s = .next { s with
      fault := s.fault ||| 0b0100#4
      events := s.events ++ [.err .enc 0x12#8 (.word (0x1000#16 ||| l.zeroExtend 16))] })

/-- R134: ENC_CMD c, word 0x1100 | c, after ENC_LEN emits the header, and for length 0 the checksum too, high byte
first; out of order it raises SEQUENCE. -/
def Obligations.EncCmdEmitsHeader : Prop :=
  (∀ c : Byte, encode (.encCmd c) = 0x1100#16 ||| c.zeroExtend 16) ∧
  (∀ (s : State) (c : Byte), s.enc.state = .haveLen → s.enc.len = 0x00#8 →
    ∃ hi lo, hi ++ lo = ckStep (ckStep 0x002A#16 0x00#8) c ∧
      exec (.encCmd c) s = .next { s with
        enc := { state := .idle, len := 0#8, rem := 0#8, acc := 0#16 }
        events := s.events ++ [.tx 0x2A#8, .tx 0x00#8, .tx c, .tx hi, .tx lo] }) ∧
  (∀ (s : State) (c : Byte), s.enc.state = .haveLen → s.enc.len ≠ 0x00#8 →
    exec (.encCmd c) s = .next { s with
      enc := { state := .payload, len := s.enc.len, rem := s.enc.len
               acc := ckStep (ckStep 0x002A#16 s.enc.len) c }
      events := s.events ++ [.tx 0x2A#8, .tx s.enc.len, .tx c] }) ∧
  (∀ (s : State) (c : Byte), s.enc.state ≠ .haveLen →
    exec (.encCmd c) s = .next { s with
      fault := s.fault ||| 0b0100#4
      events := s.events ++ [.err .enc 0x12#8 (.word (0x1100#16 ||| c.zeroExtend 16))] })

/-- R135: ENC_DATA d, word 0x1200 | d, emits a payload byte, and after the last one the checksum, high byte first; out
of order it raises SEQUENCE. -/
def Obligations.EncDataEmitsPayloadByte : Prop :=
  (∀ d : Byte, encode (.encData d) = 0x1200#16 ||| d.zeroExtend 16) ∧
  (∀ (s : State) (d : Byte), s.enc.state = .payload → 1 < s.enc.rem.toNat →
    exec (.encData d) s = .next { s with
      enc := { s.enc with rem := s.enc.rem - 1#8, acc := ckStep s.enc.acc d }
      events := s.events ++ [.tx d] }) ∧
  (∀ (s : State) (d : Byte), s.enc.state = .payload → s.enc.rem.toNat = 1 →
    ∃ hi lo, hi ++ lo = ckStep s.enc.acc d ∧
      exec (.encData d) s = .next { s with
        enc := { state := .idle, len := 0#8, rem := 0#8, acc := 0#16 }
        events := s.events ++ [.tx d, .tx hi, .tx lo] }) ∧
  (∀ (s : State) (d : Byte), s.enc.state ≠ .payload →
    exec (.encData d) s = .next { s with
      fault := s.fault ||| 0b0100#4
      events := s.events ++ [.err .enc 0x12#8 (.word (0x1200#16 ||| d.zeroExtend 16))] })

/-- R136: ENC_ABORT, word 0x1300, returns the encoder to its canonical IDLE and emits nothing; emitted bytes stay. -/
def Obligations.EncAbortReturnsToIdle : Prop :=
  encode .encAbort = 0x1300#16 ∧
  ∀ s : State, exec .encAbort s = .next { s with enc := { state := .idle, len := 0#8, rem := 0#8, acc := 0#16 } }

/-- R137: from IDLE, ENC_LEN, ENC_CMD and the ENC_DATAs of a payload, with any operations of the other units between
them, emit as TX events exactly the bytes of `encode`, raise no fault of the encoder and leave it IDLE. -/
def Obligations.EncoderStreamEqualsEncode : Prop :=
  ∀ (s : State) (c : Byte) (p : List Byte) (is : List Instr),
    s.inv = true → s.enc.state = .idle → p.length ≤ 255 →
    opsOf .enc is = .encLen (BitVec.ofNat 8 p.length) :: .encCmd c :: p.map .encData →
    ∃ t, execAll is s = .next t ∧
      (newEvents s t).filterMap Event.txByte? = frameEncode c p ∧
      eventsOf .enc (newEvents s t) = (frameEncode c p).map .tx ∧
      t.enc = { state := .idle, len := 0#8, rem := 0#8, acc := 0#16 } ∧
      t.fault &&& 0b0100#4 = s.fault &&& 0b0100#4

/-! ## DEC -/

/-- R160: the decode function on a candidate of at least five bytes, written as its header, its middle and its two last
bytes, and on a shorter one: the first failing check, in the rule's order, gives the result. -/
def Obligations.DecodeReportsFirstFailingCheck : Prop :=
  (∀ (m l c hi lo : Byte) (p : List Byte), p.length ≤ 255 →
    frameDecode ([m, l, c] ++ p ++ [hi, lo]) =
      if m ≠ 0x2A#8 then .err (.invalidMagic m)
      else if l.toNat ≠ p.length then .err (.invalidFrameLength l (BitVec.ofNat 8 p.length))
      else if hi ++ lo ≠ checksum m ([l, c] ++ p) then .err (.invalidCrc (hi ++ lo) (checksum m ([l, c] ++ p)))
      else .ok c p) ∧
  (∀ (b : Byte) (s : List Byte), s.length < 4 →
    frameDecode (b :: s) =
      if b ≠ 0x2A#8 then .err (.invalidMagic b) else .err (.frameTooShort (BitVec.ofNat 8 (s.length + 1)))) ∧
  frameDecode [] = .err (.frameTooShort 0x00#8)

/-- R166: decoding an encoded frame gives back its command and payload. -/
def Obligations.DecodeOfEncodedFrame : Prop :=
  ∀ (c : Byte) (p : List Byte), p.length ≤ 255 → frameDecode (frameEncode c p) = .ok c p

/-- R167: one changed byte of an encoded frame is always detected: the magic byte as INVALID_MAGIC, the length byte as
INVALID_FRAME_LENGTH, any other as INVALID_CRC. -/
def Obligations.SingleByteTamperIsDetected : Prop :=
  ∀ (c : Byte) (p : List Byte) (i : Nat) (x : Byte), p.length ≤ 255 → i < (frameEncode c p).length →
    (frameEncode c p)[i]? ≠ some x →
    let g := (frameEncode c p).set i x
    (i = 0 → frameDecode g = .err (.invalidMagic x)) ∧
    (i = 1 → frameDecode g = .err (.invalidFrameLength x (BitVec.ofNat 8 p.length))) ∧
    (2 ≤ i → ∃ e k, frameDecode g = .err (.invalidCrc e k))

/-- R168's example: two corrupted bytes can leave the checksum consistent. -/
def Obligations.TwoByteCorruptionCanPass : Prop :=
  frameEncode 0x01 [0x00, 0x00, 0x00, 0x00] = [0x2A, 0x04, 0x01, 0x00, 0x00, 0x00, 0x00, 0xE2, 0xEA] ∧
  frameDecode [0x2A, 0x04, 0x01, 0x89, 0x00, 0xA1, 0x00, 0xE2, 0xEA] = .ok 0x01 [0x89, 0x00, 0xA1, 0x00]

/-- A valid frame followed by another in one candidate fails with INVALID_FRAME_LENGTH, if both fit the buffer. -/
def Obligations.TwoFramesInOneCandidateFail : Prop :=
  ∀ (c c' : Byte) (p p' : List Byte), p.length + p'.length + 10 ≤ 260 →
    frameDecode (frameEncode c p ++ frameEncode c' p') =
      .err (.invalidFrameLength (BitVec.ofNat 8 p.length) (BitVec.ofNat 8 (p.length + p'.length + 5)))

/-- R170: DEC_BYTE b, word 0x2000 | b, writes b to cell `dec.n` and leaves every other cell; with 260 bytes held it
raises DEC_OVERFLOW, drops the byte and leaves the buffer. -/
def Obligations.DecByteAppendsOrOverflows : Prop :=
  (∀ b : Byte, encode (.decByte b) = 0x2000#16 ||| b.zeroExtend 16) ∧
  (∀ (s : State) (b : Byte), s.dec.n < 260 → ∃ m,
    exec (.decByte b) s = .next { s with dec := { buf := m } } ∧
    m.length = s.dec.n + 1 ∧ bufRead m s.dec.n = some b ∧
    ∀ a, a ≠ s.dec.n → bufRead m a = bufRead s.dec.buf a) ∧
  (∀ (s : State) (b : Byte), s.dec.n = 260 → exec (.decByte b) s =
    .next { s with fault := s.fault ||| 0b1000#4, events := s.events ++ [.err .dec 0x13#8 (.byte b)] })

/-- R171: DEC_END, word 0x2100, emits what the candidate decodes to, and empties the buffer whatever the result; it
sets no fault bit. -/
def Obligations.DecEndDecodesAndEmpties : Prop :=
  encode .decEnd = 0x2100#16 ∧
  (∀ (s : State) (c : Byte) (p : List Byte), frameDecode s.dec.buf = .ok c p →
    exec .decEnd s = .next { s with dec := { buf := [] }, events := s.events ++ [.rxf .dec c p] }) ∧
  (∀ (s : State) (e : DecodeError), frameDecode s.dec.buf = .err e →
    exec .decEnd s = .next { s with dec := { buf := [] }, events := s.events ++ [.err .dec e.code e.info] }) ∧
  (∀ s : State, ∃ t, exec .decEnd s = .next t ∧ ∀ a, bufRead t.dec.buf a = none)

/-- R172: DEC_CLR, word 0x2200, empties the buffer and changes nothing else. -/
def Obligations.DecClrDiscardsCandidate : Prop :=
  encode .decClr = 0x2200#16 ∧
  ∀ s : State, exec .decClr s = .next { s with dec := { buf := [] } }

/-- R173: from an empty buffer, a candidate of at most 260 bytes and DEC_END emit exactly the event of its decode, and
leave the buffer empty. -/
def Obligations.DecoderRunEqualsDecode : Prop :=
  ∀ (s : State) (bs : List Byte), s.dec.n = 0 → bs.length ≤ 260 →
    execAll (bs.map .decByte ++ [.decEnd]) s = .next { s with
      dec := { buf := [] }
      events := s.events ++ [match frameDecode bs with
        | .ok c p => .rxf .dec c p
        | .err e => .err .dec e.code e.info] }

/-! ## SYNC -/

/-- R191 to R196 and R198: SYNC_BYTE b, word 0x3000 | b, in each of the six states, with room for one more byte. -/
def Obligations.SyncByteTransitions : Prop :=
  (∀ b : Byte, encode (.syncByte b) = 0x3000#16 ||| b.zeroExtend 16) ∧
  ∀ (s : State) (b : Byte), s.sync.n < 260 →
    (s.sync.state = .seeking → b = 0x2A#8 → exec (.syncByte b) s =
      .next { s with sync := { s.sync with buf := s.sync.buf ++ [b], state := .length } }) ∧
    (s.sync.state = .seeking → b ≠ 0x2A#8 → exec (.syncByte b) s = .next { s with sync := { s.sync with buf := [] } }) ∧
    (s.sync.state = .length → exec (.syncByte b) s =
      .next { s with sync := { s.sync with buf := s.sync.buf ++ [b], len := b, state := .command } }) ∧
    (s.sync.state = .command → exec (.syncByte b) s =
      .next { s with sync := { s.sync with
        buf := s.sync.buf ++ [b]
        cnt := 0#8
        state := if s.sync.len = 0#8 then .crcHigh else .data } }) ∧
    (s.sync.state = .data → s.sync.cnt.toNat < s.sync.len.toNat → exec (.syncByte b) s =
      .next { s with sync := { s.sync with
        buf := s.sync.buf ++ [b]
        cnt := s.sync.cnt + 1#8
        state := if s.sync.cnt + 1#8 = s.sync.len then .crcHigh else .data } }) ∧
    (s.sync.state = .crcHigh → exec (.syncByte b) s =
      .next { s with sync := { s.sync with buf := s.sync.buf ++ [b], state := .crcLow } }) ∧
    (s.sync.state = .crcLow → exec (.syncByte b) s =
      .next { s with
        sync := { state := .seeking, buf := [], len := 0#8, cnt := 0#8 }
        events := s.events ++ [match frameDecode (s.sync.buf ++ [b]) with
          | .ok c p => .rxf .sync c p
          | .err e => .err .sync e.code e.info] })

/-- A byte SYNC buffers goes to cell `sync.n`, and every other cell keeps its value; the append of a byte outside the
260 cells, which no reachable state does, stops the model (log entry 5, the model's choice). -/
def Obligations.SyncBufferFrame : Prop :=
  (∀ (s t : State) (b : Byte), exec (.syncByte b) s = .next t → s.sync.state ≠ .crcLow →
    (s.sync.state = .seeking → b = 0x2A#8) →
    bufRead t.sync.buf s.sync.n = some b ∧ ∀ a, a ≠ s.sync.n → bufRead t.sync.buf a = bufRead s.sync.buf a) ∧
  (∀ (s : State) (b : Byte), 260 ≤ s.sync.n → (s.sync.state = .seeking → b = 0x2A#8) →
    exec (.syncByte b) s = .fault .syncBufferOverrun)

/-- R199: SYNC_ABORT, word 0x3100, returns to SEEKING with an empty buffer, and emits nothing. -/
def Obligations.SyncAbortReturnsToSeeking : Prop :=
  encode .syncAbort = 0x3100#16 ∧
  ∀ s : State, exec .syncAbort s =
    .next { s with sync := { state := .seeking, buf := [], len := 0#8, cnt := 0#8 } }

/-- R201: in SEEKING, any number of bytes other than the magic byte is discarded, with no event and no change. -/
def Obligations.NoiseIsDiscarded : Prop :=
  ∀ (s : State) (bs : List Byte), s.inv = true → s.sync.state = .seeking → (∀ b ∈ bs, b ≠ 0x2A#8) →
    execAll (bs.map .syncByte) s = .next s

/-- R200: from SEEKING, noise without a magic byte and then an encoded frame emit exactly one event, the frame
received, and leave SYNC in SEEKING; the event comes on the last byte, since the same bytes without it emit nothing. -/
def Obligations.SynchronizerReceivesEncodedFrame : Prop :=
  ∀ (s : State) (noise : List Byte) (c : Byte) (p : List Byte),
    s.inv = true → s.sync.state = .seeking → (∀ b ∈ noise, b ≠ 0x2A#8) → p.length ≤ 255 →
    (∃ t, execAll ((noise ++ (frameEncode c p).dropLast).map .syncByte) s = .next t ∧ t.events = s.events) ∧
    execAll ((noise ++ frameEncode c p).map .syncByte) s =
      .next { s with
        sync := { state := .seeking, buf := [], len := 0#8, cnt := 0#8 }
        events := s.events ++ [.rxf .sync c p] }

/-- R205: after a magic byte and a length byte, SYNC emits nothing before it has taken exactly `5 + length` bytes,
whatever they are; then it emits what they decode to. Only its own operations change its state, so it waits as long as
none comes. -/
def Obligations.SynchronizerWaitsForWholeFrame : Prop :=
  (∀ (s : State) (l : Byte) (bs : List Byte), s.inv = true → s.sync.state = .seeking →
    bs.length < 3 + l.toNat →
    ∃ t, execAll ((0x2A#8 :: l :: bs).map .syncByte) s = .next t ∧ t.events = s.events ∧
      t.sync.state ≠ .seeking ∧ t.sync.buf = 0x2A#8 :: l :: bs ∧ t.sync.len = l ∧
      t.ck = s.ck ∧ t.enc = s.enc ∧ t.dec = s.dec ∧ t.fault = s.fault) ∧
  (∀ (s : State) (l : Byte) (bs : List Byte), s.inv = true → s.sync.state = .seeking →
    bs.length = 3 + l.toNat →
    execAll ((0x2A#8 :: l :: bs).map .syncByte) s =
      .next { s with
        sync := { state := .seeking, buf := [], len := 0#8, cnt := 0#8 }
        events := s.events ++ [match frameDecode (0x2A#8 :: l :: bs) with
          | .ok c p => .rxf .sync c p
          | .err e => .err .sync e.code e.info] }) ∧
  (∀ (s t : State) (w : Word) (rest : List Input), s.input = .word w :: rest →
    (∀ b, decode w ≠ .instr (.syncByte b)) → decode w ≠ .instr .syncAbort → step s = .next t → t.sync = s.sync)

/-- R203: the candidate SYNC hands to `decode` begins with the magic byte and has the length its length byte announces,
so INVALID_CRC is the only decode error SYNC reports; and the rule's example. -/
def Obligations.SynchronizerReportsOnlyInvalidCrc : Prop :=
  (∀ (s : State) (b : Byte), s.inv = true → s.sync.state = .crcLow →
    (s.sync.buf ++ [b])[0]? = some 0x2A#8 ∧
    (∃ l, (s.sync.buf ++ [b])[1]? = some l ∧ (s.sync.buf ++ [b]).length = 5 + l.toNat) ∧
    ((∃ c p, frameDecode (s.sync.buf ++ [b]) = .ok c p) ∨
      ∃ e k, frameDecode (s.sync.buf ++ [b]) = .err (.invalidCrc e k))) ∧
  (∀ (s t : State) (b : Byte) (u : Src) (code : Byte) (info : Info), s.inv = true → exec (.syncByte b) s = .next t →
      .err u code info ∈ newEvents s t → u = .sync ∧ code = 0x03#8 ∧ ∃ e k, info = .sums e k) ∧
  execAll (([0x2A, 0x03, 0x0A, 0xD4, 0x00, 0x00, 0x0A, 0xCD, 0xAD] : List Byte).map .syncByte) State.reset =
    .next { State.reset with events := [.err .sync 0x03#8 (.sums 0x0ACD#16 0x60C8#16)] }

/-- R202's example: a noise 0x2A before a frame makes SYNC take the frame as the payload of another. -/
def Obligations.NoiseMagicByteMisframes : Prop :=
  frameEncode 0x01 [] = [0x2A, 0x00, 0x01, 0x95, 0x09] ∧
  execAll ((0x2A :: frameEncode 0x01 []).map .syncByte) State.reset =
    .next { State.reset with sync := { state := .data, buf := [0x2A, 0x2A, 0x00, 0x01, 0x95, 0x09], len := 42, cnt := 3 } }

/-! ## CTRL -/

/-- R230 and R25: STAT_READ, word 0x4000, emits the STATUS word, every field at its bits and the reserved bits 0, and
changes nothing else. -/
def Obligations.StatReadReportsStatus : Prop :=
  encode .statRead = 0x4000#16 ∧
  ∀ s : State, ∃ v : Word,
    exec .statRead s = .next { s with events := s.events ++ [.stv v] } ∧
    v.extractLsb' 0 4 = s.fault ∧
    v.getLsbD 4 = s.ck.empty ∧
    (v.extractLsb' 5 2).toNat = (match s.enc.state with | .idle => 0 | .haveLen => 1 | .payload => 2) ∧
    v.getLsbD 7 = false ∧
    (v.extractLsb' 8 3).toNat = (match s.sync.state with
      | .seeking => 0 | .length => 1 | .command => 2 | .data => 3 | .crcHigh => 4 | .crcLow => 5) ∧
    v.extractLsb' 11 5 = 0#5

/-! ## Errors -/

/-- R85's table of codes and info fields, and the fault bit and unit tag of each usage fault (R24, R243). -/
def Obligations.ErrorCodesFollowTable : Prop :=
  (∀ got, (DecodeError.invalidMagic got).code = 0x01#8 ∧ (DecodeError.invalidMagic got).info = .byte got) ∧
  (∀ d a, (DecodeError.invalidFrameLength d a).code = 0x02#8 ∧
    (DecodeError.invalidFrameLength d a).info = .lengths d a) ∧
  (∀ e k, (DecodeError.invalidCrc e k).code = 0x03#8 ∧ (DecodeError.invalidCrc e k).info = .sums e k) ∧
  (∀ n, (DecodeError.frameTooShort n).code = 0x04#8 ∧ (DecodeError.frameTooShort n).info = .byte n) ∧
  UsageFault.ckEmpty.event = .err .ck 0x10#8 .none ∧ UsageFault.ckEmpty.mask = 0b0001#4 ∧
  (∀ w, (UsageFault.illegalOp w).event = .err .ctrl 0x11#8 (.word w) ∧ (UsageFault.illegalOp w).mask = 0b0010#4) ∧
  (∀ w, (UsageFault.sequence w).event = .err .enc 0x12#8 (.word w) ∧ (UsageFault.sequence w).mask = 0b0100#4) ∧
  (∀ b, (UsageFault.decOverflow b).event = .err .dec 0x13#8 (.byte b) ∧ (UsageFault.decOverflow b).mask = 0b1000#4)

/-- R243: a step that reports a usage fault sets the bit of its code, emits the one ERR event, and changes nothing
else of the block; a bit that is set stays set until reset; and a bit already set changes nothing an operation does,
but for what STAT_READ reports. -/
def Obligations.UsageFaultIsPrecise : Prop :=
  (∀ (s t : State) (u : Src) (code : Byte) (info : Info), step s = .next t →
    .err u code info ∈ newEvents s t → 0x10 ≤ code.toNat →
    ∃ k : Nat, k < 4 ∧ code.toNat = 0x10 + k ∧
      t = { s with
        input := s.input.tail
        fault := s.fault ||| (1#4 <<< k)
        events := s.events ++ [.err u code info] }) ∧
  (∀ s t : State, s.input.head? ≠ some .reset → step s = .next t → s.fault &&& t.fault = s.fault) ∧
  (∀ (i : Instr) (s t : State), i ≠ .statRead → exec i s = .next t →
    ∃ m : BitVec 4, t.fault = s.fault ||| m ∧
      ∀ f : BitVec 4, exec i { s with fault := f } = .next { t with fault := f ||| m })

/-- R242: a step that reports a decode error reports it from DEC or SYNC, sets no fault bit, and leaves that unit ready
for the next candidate. -/
def Obligations.DecodeErrorSetsNoFaultBit : Prop :=
  ∀ (s t : State) (u : Src) (code : Byte) (info : Info), step s = .next t →
    .err u code info ∈ newEvents s t → code.toNat < 0x10 →
    t.fault = s.fault ∧
    ((u = .dec ∧ t.dec.buf = [] ∧ t.sync = s.sync) ∨
      (u = .sync ∧ t.sync = { state := .seeking, buf := [], len := 0#8, cnt := 0#8 } ∧ t.dec = s.dec)) ∧
    t.ck = s.ck ∧ t.enc = s.enc

/-- R245: a step reports at most one error; an illegal word only ILLEGAL_OP, and each operation only the errors the
rule names for it. -/
def Obligations.AtMostOneErrorPerOperation : Prop :=
  (∀ s t : State, step s = .next t → (newEvents s t).countP Event.isErr ≤ 1) ∧
  (∀ (s t : State) (w : Word) (rest : List Input) (u : Src) (code : Byte) (info : Info),
    s.input = .word w :: rest → (∀ i, decode w ≠ .instr i) → step s = .next t →
    .err u code info ∈ newEvents s t → u = .ctrl ∧ code = 0x11#8 ∧ info = .word w) ∧
  (∀ (i : Instr) (s t : State) (u : Src) (code : Byte) (info : Info), exec i s = .next t →
    .err u code info ∈ newEvents s t → u = unitOf i ∧
      match i with
      | .ckRead => code = 0x10#8
      | .encLen _ => code = 0x12#8
      | .encCmd _ => code = 0x12#8
      | .encData _ => code = 0x12#8
      | .decByte _ => code = 0x13#8
      | .decEnd => 0x01 ≤ code.toNat ∧ code.toNat ≤ 0x04
      | .syncByte _ => 0x01 ≤ code.toNat ∧ code.toNat ≤ 0x04
      | .ckClr => False
      | .ckByte _ => False
      | .encAbort => False
      | .decClr => False
      | .syncAbort => False
      | .statRead => False)

/-- A step only adds to the output stream, at most five events; an operation other than ENC_CMD and ENC_DATA adds at
most one, and each event carries the tag of the operation's unit. -/
def Obligations.OutputStreamOnlyGrows : Prop :=
  (∀ s t : State, step s = .next t → t.events = s.events ++ newEvents s t ∧ (newEvents s t).length ≤ 5) ∧
  (∀ (i : Instr) (s t : State), exec i s = .next t →
    t.events = s.events ++ newEvents s t ∧
    ((∀ c, i ≠ .encCmd c) → (∀ d, i ≠ .encData d) → (newEvents s t).length ≤ 1) ∧
    ∀ e ∈ newEvents s t, e.src = unitOf i)

/-! ## Independence of the units -/

/-- R27: an operation leaves the elements of every other unit as they are, and what it does to its own unit, to the
fault bits and to the output depends only on its own unit (for CTRL: on the STATUS word). -/
def Obligations.UnitStateIsPrivate : Prop :=
  (∀ (i : Instr) (s t : State), exec i s = .next t →
    (unitOf i ≠ .ck → t.ck = s.ck) ∧ (unitOf i ≠ .enc → t.enc = s.enc) ∧
    (unitOf i ≠ .dec → t.dec = s.dec) ∧ (unitOf i ≠ .sync → t.sync = s.sync) ∧ t.input = s.input) ∧
  (∀ (i : Instr) (s s' t : State), sameUnit (unitOf i) s s' → exec i s = .next t →
    ∃ (t' : State) (new : List Event) (m : BitVec 4), exec i s' = .next t' ∧
      (unitOf i = .ctrl ∨ sameUnit (unitOf i) t t') ∧
      t.events = s.events ++ new ∧ t'.events = s'.events ++ new ∧
      t.fault = s.fault ||| m ∧ t'.fault = s'.fault ||| m)

/-- R59: however operations of the units are interleaved, what a unit ends with and what it emits depend only on the
operations addressed to it. -/
def Obligations.InterleavingDoesNotMatter : Prop :=
  ∀ (s : State) (is : List Instr) (u : Src), s.inv = true → u ≠ .ctrl →
    ∃ t t', execAll is s = .next t ∧ execAll (opsOf u is) s = .next t' ∧
      sameUnit u t t' ∧ eventsOf u (newEvents s t) = eventsOf u (newEvents s t')
end

