-- ==== Sys2Proof/Laws/State.lean ====
section
/-! SUPPORT. One lemma per field per update of the state, so that no later proof unfolds a record update. -/

namespace Sys2Proof.Machine

@[simp] theorem State.withCk_ck (s : State) (u : CkUnit) : (s.withCk u).ck = u := rfl
@[simp] theorem State.withCk_enc (s : State) (u : CkUnit) : (s.withCk u).enc = s.enc := rfl
@[simp] theorem State.withCk_dec (s : State) (u : CkUnit) : (s.withCk u).dec = s.dec := rfl
@[simp] theorem State.withCk_sync (s : State) (u : CkUnit) : (s.withCk u).sync = s.sync := rfl
@[simp] theorem State.withCk_fault (s : State) (u : CkUnit) : (s.withCk u).fault = s.fault := rfl
@[simp] theorem State.withCk_events (s : State) (u : CkUnit) : (s.withCk u).events = s.events := rfl
@[simp] theorem State.withCk_input (s : State) (u : CkUnit) : (s.withCk u).input = s.input := rfl

@[simp] theorem State.withEnc_ck (s : State) (u : EncUnit) : (s.withEnc u).ck = s.ck := rfl
@[simp] theorem State.withEnc_enc (s : State) (u : EncUnit) : (s.withEnc u).enc = u := rfl
@[simp] theorem State.withEnc_dec (s : State) (u : EncUnit) : (s.withEnc u).dec = s.dec := rfl
@[simp] theorem State.withEnc_sync (s : State) (u : EncUnit) : (s.withEnc u).sync = s.sync := rfl
@[simp] theorem State.withEnc_fault (s : State) (u : EncUnit) : (s.withEnc u).fault = s.fault := rfl
@[simp] theorem State.withEnc_events (s : State) (u : EncUnit) : (s.withEnc u).events = s.events := rfl
@[simp] theorem State.withEnc_input (s : State) (u : EncUnit) : (s.withEnc u).input = s.input := rfl

@[simp] theorem State.withDec_ck (s : State) (u : DecUnit) : (s.withDec u).ck = s.ck := rfl
@[simp] theorem State.withDec_enc (s : State) (u : DecUnit) : (s.withDec u).enc = s.enc := rfl
@[simp] theorem State.withDec_dec (s : State) (u : DecUnit) : (s.withDec u).dec = u := rfl
@[simp] theorem State.withDec_sync (s : State) (u : DecUnit) : (s.withDec u).sync = s.sync := rfl
@[simp] theorem State.withDec_fault (s : State) (u : DecUnit) : (s.withDec u).fault = s.fault := rfl
@[simp] theorem State.withDec_events (s : State) (u : DecUnit) : (s.withDec u).events = s.events := rfl
@[simp] theorem State.withDec_input (s : State) (u : DecUnit) : (s.withDec u).input = s.input := rfl

@[simp] theorem State.withSync_ck (s : State) (u : SyncUnit) : (s.withSync u).ck = s.ck := rfl
@[simp] theorem State.withSync_enc (s : State) (u : SyncUnit) : (s.withSync u).enc = s.enc := rfl
@[simp] theorem State.withSync_dec (s : State) (u : SyncUnit) : (s.withSync u).dec = s.dec := rfl
@[simp] theorem State.withSync_sync (s : State) (u : SyncUnit) : (s.withSync u).sync = u := rfl
@[simp] theorem State.withSync_fault (s : State) (u : SyncUnit) : (s.withSync u).fault = s.fault := rfl
@[simp] theorem State.withSync_events (s : State) (u : SyncUnit) : (s.withSync u).events = s.events := rfl
@[simp] theorem State.withSync_input (s : State) (u : SyncUnit) : (s.withSync u).input = s.input := rfl

@[simp] theorem State.emit_ck (s : State) (es : List Event) : (s.emit es).ck = s.ck := rfl
@[simp] theorem State.emit_enc (s : State) (es : List Event) : (s.emit es).enc = s.enc := rfl
@[simp] theorem State.emit_dec (s : State) (es : List Event) : (s.emit es).dec = s.dec := rfl
@[simp] theorem State.emit_sync (s : State) (es : List Event) : (s.emit es).sync = s.sync := rfl
@[simp] theorem State.emit_fault (s : State) (es : List Event) : (s.emit es).fault = s.fault := rfl
@[simp] theorem State.emit_events (s : State) (es : List Event) : (s.emit es).events = s.events ++ es := rfl
@[simp] theorem State.emit_input (s : State) (es : List Event) : (s.emit es).input = s.input := rfl

@[simp] theorem State.withInput_ck (s : State) (is : List Input) : (s.withInput is).ck = s.ck := rfl
@[simp] theorem State.withInput_enc (s : State) (is : List Input) : (s.withInput is).enc = s.enc := rfl
@[simp] theorem State.withInput_dec (s : State) (is : List Input) : (s.withInput is).dec = s.dec := rfl
@[simp] theorem State.withInput_sync (s : State) (is : List Input) : (s.withInput is).sync = s.sync := rfl
@[simp] theorem State.withInput_fault (s : State) (is : List Input) : (s.withInput is).fault = s.fault := rfl
@[simp] theorem State.withInput_events (s : State) (is : List Input) : (s.withInput is).events = s.events := rfl
@[simp] theorem State.withInput_input (s : State) (is : List Input) : (s.withInput is).input = is := rfl

@[simp] theorem State.raiseUsageFault_ck (s : State) (u : UsageFault) : (s.raiseUsageFault u).ck = s.ck := rfl
@[simp] theorem State.raiseUsageFault_enc (s : State) (u : UsageFault) : (s.raiseUsageFault u).enc = s.enc := rfl
@[simp] theorem State.raiseUsageFault_dec (s : State) (u : UsageFault) : (s.raiseUsageFault u).dec = s.dec := rfl
@[simp] theorem State.raiseUsageFault_sync (s : State) (u : UsageFault) : (s.raiseUsageFault u).sync = s.sync := rfl
@[simp] theorem State.raiseUsageFault_fault (s : State) (u : UsageFault) : (s.raiseUsageFault u).fault = s.fault ||| u.mask := rfl
@[simp] theorem State.raiseUsageFault_events (s : State) (u : UsageFault) : (s.raiseUsageFault u).events = s.events ++ [u.event] := rfl
@[simp] theorem State.raiseUsageFault_input (s : State) (u : UsageFault) : (s.raiseUsageFault u).input = s.input := rfl

@[simp] theorem State.resetBlock_ck (s : State) : (s.resetBlock).ck = .cleared := rfl
@[simp] theorem State.resetBlock_enc (s : State) : (s.resetBlock).enc = .idle := rfl
@[simp] theorem State.resetBlock_dec (s : State) : (s.resetBlock).dec = .empty := rfl
@[simp] theorem State.resetBlock_sync (s : State) : (s.resetBlock).sync = .seeking := rfl
@[simp] theorem State.resetBlock_fault (s : State) : (s.resetBlock).fault = 0#4 := rfl
@[simp] theorem State.resetBlock_events (s : State) : (s.resetBlock).events = s.events := rfl
@[simp] theorem State.resetBlock_input (s : State) : (s.resetBlock).input = s.input := rfl

@[simp] theorem State.issueFirst_ck (s : State) (i : Input) : (s.issueFirst i).ck = s.ck := rfl
@[simp] theorem State.issueFirst_enc (s : State) (i : Input) : (s.issueFirst i).enc = s.enc := rfl
@[simp] theorem State.issueFirst_dec (s : State) (i : Input) : (s.issueFirst i).dec = s.dec := rfl
@[simp] theorem State.issueFirst_sync (s : State) (i : Input) : (s.issueFirst i).sync = s.sync := rfl
@[simp] theorem State.issueFirst_fault (s : State) (i : Input) : (s.issueFirst i).fault = s.fault := rfl
@[simp] theorem State.issueFirst_events (s : State) (i : Input) : (s.issueFirst i).events = s.events := rfl
@[simp] theorem State.issueFirst_input (s : State) (i : Input) : (s.issueFirst i).input = i :: s.input := rfl

@[simp] theorem State.issue_ck (s : State) (is : List Input) : (s.issue is).ck = s.ck := rfl
@[simp] theorem State.issue_enc (s : State) (is : List Input) : (s.issue is).enc = s.enc := rfl
@[simp] theorem State.issue_dec (s : State) (is : List Input) : (s.issue is).dec = s.dec := rfl
@[simp] theorem State.issue_sync (s : State) (is : List Input) : (s.issue is).sync = s.sync := rfl
@[simp] theorem State.issue_fault (s : State) (is : List Input) : (s.issue is).fault = s.fault := rfl
@[simp] theorem State.issue_events (s : State) (is : List Input) : (s.issue is).events = s.events := rfl
@[simp] theorem State.issue_input (s : State) (is : List Input) : (s.issue is).input = s.input ++ is := rfl

/-- Two states with the same fields are the same state. -/
theorem State.ext_fields {s t : State} (ck : s.ck = t.ck) (enc : s.enc = t.enc) (dec : s.dec = t.dec)
    (sync : s.sync = t.sync) (fault : s.fault = t.fault) (events : s.events = t.events) (input : s.input = t.input) :
    s = t := by
  cases s; cases t; simp_all

@[simp] theorem State.emit_nil (s : State) : s.emit [] = s := by simp [State.emit]

@[simp] theorem State.emit_emit (s : State) (xs ys : List Event) : (s.emit xs).emit ys = s.emit (xs ++ ys) := by
  simp [State.emit]

end Sys2Proof.Machine
end

