-- ==== Sys2Proof/Laws/Ops.lean ====
section
/-! SUPPORT. For each shared operation, one lemma that says everything it can do: the decoder's fields, the buffer
primitives, the host's inputs and the append of the synchronizer. -/

namespace Sys2Proof

@[simp] theorem opField_opWord (op arg : Byte) : opField (opWord op arg) = op := by
  ext i hi
  simp only [opField, opWord, BitVec.getElem_extractLsb', BitVec.getLsbD_append]
  simp [Nat.not_lt.mpr (Nat.le_add_right 8 i), hi]

@[simp] theorem argField_opWord (op arg : Byte) : argField (opWord op arg) = arg := by
  ext i hi
  simp only [argField, opWord, BitVec.getElem_extractLsb', BitVec.getLsbD_append]
  simp [hi]

/-- A word is its two fields (R80). -/
theorem opWord_fields (w : Word) : opWord (opField w) (argField w) = w := by
  apply BitVec.eq_of_getLsbD_eq
  intro i hi
  simp only [opField, opWord, argField, BitVec.getLsbD_append, BitVec.getLsbD_extractLsb']
  split
  · next h => simp [h]
  · next h => simp [show 8 + (i - 8) = i by omega, show i - 8 < 8 by omega]

end Sys2Proof

namespace Sys2Proof.Machine

/-! ## Buffers -/

/-- `bufAppend` answers exactly when the buffer has room, with the byte in the next cell (R51). -/
theorem bufAppend_eq_some {m m' : Memory} {v : Byte} :
    bufAppend m v = some m' ↔ m.length < Config.bufCap ∧ m' = m ++ [v] := by
  unfold bufAppend
  split <;> simp_all [eq_comm]

theorem bufAppend_eq_none {m : Memory} {v : Byte} : bufAppend m v = none ↔ Config.bufCap ≤ m.length := by
  unfold bufAppend
  split <;> simp_all

theorem bufAppend_of_lt {m : Memory} (h : m.length < Config.bufCap) (v : Byte) : bufAppend m v = some (m ++ [v]) :=
  bufAppend_eq_some.mpr ⟨h, rfl⟩

/-- A buffer has the canonical form exactly when it fits its 260 cells. -/
theorem Memory.wf_iff {m : Memory} : Memory.wf m = true ↔ m.length ≤ Config.bufCap := by
  simp [Memory.wf, fitsBuffer]

/-- The empty buffer, which emptying and reset leave, has the canonical form. -/
theorem Memory.wf_nil : Memory.wf [] = true := by decide

/-- An append keeps the canonical form. -/
theorem Memory.wf_bufAppend {m m' : Memory} {v : Byte} (h : bufAppend m v = some m') : Memory.wf m' = true := by
  obtain ⟨hlt, rfl⟩ := bufAppend_eq_some.mp h
  rw [Memory.wf_iff, List.length_append]
  exact hlt

/-- A buffer read after an append: the new cell holds the byte, every other cell is as before (R51). -/
theorem bufRead_bufAppend {m m' : Memory} {v : Byte} (h : bufAppend m v = some m') (i : Nat) :
    bufRead m' i = if i = m.length then some v else bufRead m i := by
  obtain ⟨-, rfl⟩ := bufAppend_eq_some.mp h
  unfold bufRead
  rcases Nat.lt_trichotomy i m.length with hi | rfl | hi
  · simp [List.getElem?_append_left hi, Nat.ne_of_lt hi]
  · simp
  · have : ¬ i = m.length := by omega
    simp [this, List.getElem?_eq_none (show (m ++ [v]).length ≤ i by simp; omega),
      List.getElem?_eq_none (Nat.le_of_lt hi)]

/-- A cell at the count or above has no value (R22, R23). -/
theorem bufRead_eq_none {m : Memory} {i : Nat} : bufRead m i = none ↔ m.length ≤ i := by
  simp [bufRead]

theorem bufRead_nil (i : Nat) : bufRead [] i = none := by simp [bufRead]

/-- The cells' addresses are 0, 1, 2, … in order, so they rise strictly. -/
theorem Memory.cells_addresses (m : Memory) : (Memory.cells m).map Prod.fst = List.range m.length := by
  simp [Memory.cells, Function.comp_def, List.zipIdx_map_snd, List.range_eq_range']

theorem Memory.cells_rising (m : Memory) : ((Memory.cells m).map Prod.fst).Pairwise (· < ·) := by
  rw [Memory.cells_addresses]
  exact List.pairwise_lt_range

/-! ## Inputs -/

/-- What `takeInput` answers: the head of the pending inputs, and the state without it. -/
theorem takeInput_eq_some {s t : State} {i : Input} :
    takeInput s = some (i, t) ↔ ∃ rest, s.input = i :: rest ∧ t = s.withInput rest := by
  unfold takeInput
  split <;> simp_all [eq_comm]

theorem takeInput_eq_none {s : State} : takeInput s = none ↔ s.input = [] := by
  unfold takeInput
  split <;> simp_all

/-- Everything a step can do. -/
theorem step_cases (s : State) :
    (s.input = [] ∧ step s = .next s) ∨
    (∃ rest, s.input = .reset :: rest ∧ step s = .next (s.withInput rest).resetBlock) ∨
    (∃ w rest i, s.input = .word w :: rest ∧ decode w = .instr i ∧ step s = exec i (s.withInput rest)) ∨
    (∃ w rest r, s.input = .word w :: rest ∧ decode w = .illegal r ∧
      step s = .next (illegalWord w (s.withInput rest))) := by
  unfold step takeInput
  rcases h : s.input with _ | ⟨w | _, rest⟩
  · simp
  · rcases hd : decode w with i | r
    · exact .inr (.inr (.inl ⟨w, rest, i, rfl, hd, by simp [hd]⟩))
    · exact .inr (.inr (.inr ⟨w, rest, r, rfl, hd, by simp [hd]⟩))
  · exact .inr (.inl ⟨rest, rfl, rfl⟩)

/-! ## The synchronizer's append -/

/-- If the append answers, the buffer had room and the continuation got the longer buffer. -/
theorem syncAppend_eq_next {b : Byte} {s t : State} {k : Memory → State} (h : syncAppend b s k = .next t) :
    s.sync.buf.length < Config.bufCap ∧ t = k (s.sync.buf ++ [b]) := by
  unfold syncAppend at h
  split at h
  · cases h
  · next hb =>
    obtain ⟨hlt, rfl⟩ := bufAppend_eq_some.mp hb
    exact ⟨hlt, by cases h; rfl⟩

theorem syncAppend_of_lt {s : State} (h : s.sync.buf.length < Config.bufCap) (b : Byte) (k : Memory → State) :
    syncAppend b s k = .next (k (s.sync.buf ++ [b])) := by
  simp [syncAppend, bufAppend_of_lt h]

/-- The append stops exactly on a full buffer. -/
theorem syncAppend_eq_fault {b : Byte} {s : State} {k : Memory → State} {r : Fault} :
    syncAppend b s k = .fault r ↔ Config.bufCap ≤ s.sync.buf.length ∧ .syncBufferOverrun = r := by
  unfold syncAppend
  split
  · next h => simp [bufAppend_eq_none.mp h]
  · next h => simp [(bufAppend_eq_some.mp h).1]

end Sys2Proof.Machine
end

