-- ==== Sys2Proof/Laws/Frame.lean ====
section
/-! SUPPORT. The bit-field helpers and the frame functions, unfolded once. -/

namespace Sys2Proof.Machine

/-- The two wire bytes of a 16-bit value, read back (20_memory.md R53). -/
@[simp] theorem bigEndian_hiByte_loByte (x : Word) : bigEndian (hiByte x) (loByte x) = x := opWord_fields x

@[simp] theorem hiByte_bigEndian (hi lo : Byte) : hiByte (bigEndian hi lo) = hi := opField_opWord hi lo

@[simp] theorem loByte_bigEndian (hi lo : Byte) : loByte (bigEndian hi lo) = lo := argField_opWord hi lo

/-- A length that fits a byte is the value of the byte that carries it (30_encoding.md R72). -/
theorem toNat_byteOfNat {n : Nat} (h : n ≤ 255) : (byteOfNat n).toNat = n := by
  simp [byteOfNat]
  omega

/-- The checksum of a longer sequence goes on from that of a shorter one (40_checksum.md R101). -/
theorem checksum_append (s0 : Byte) (xs ys : List Byte) :
    checksum s0 (xs ++ ys) = ys.foldl ckStep (checksum s0 xs) := by
  simp [checksum]

theorem length_frameEncode (cmd : Byte) (p : List Byte) : (frameEncode cmd p).length = p.length + 5 := by
  simp [frameEncode]

end Sys2Proof.Machine
end

