-- ==== Sys2Proof/Laws/Invariant.lean ====
section
/-! SUPPORT. What the invariants of 10_state.md R30 and R31 say, one lemma per unit and state, so that no proof unfolds
them. -/

namespace Sys2Proof.Machine

/-- The four units' invariants, one by one. -/
theorem State.inv_iff (s : State) :
    s.inv = true ↔ s.ck.inv = true ∧ s.enc.inv = true ∧ s.dec.inv = true ∧ s.sync.inv = true := by
  simp [State.inv, and_assoc]

theorem CkUnit.inv_iff {u : CkUnit} : u.inv = true ↔ (u.empty = true → u.acc = 0#16) := by
  cases h : u.empty <;> simp [CkUnit.inv, h]

theorem DecUnit.inv_iff {u : DecUnit} : u.inv = true ↔ u.buf.length ≤ 260 := Memory.wf_iff

theorem EncUnit.inv_idle {u : EncUnit} (h : u.state = .idle) : u.inv = true ↔ u.len = 0#8 ∧ u.rem = 0#8 ∧ u.acc = 0#16 := by
  simp [EncUnit.inv, h, and_assoc]

theorem EncUnit.inv_haveLen {u : EncUnit} (h : u.state = .haveLen) : u.inv = true ↔ u.rem = 0#8 ∧ u.acc = 0#16 := by
  simp [EncUnit.inv, h]

theorem EncUnit.inv_payload {u : EncUnit} (h : u.state = .payload) :
    u.inv = true ↔ 1 ≤ u.rem.toNat ∧ u.rem.toNat ≤ u.len.toNat := by
  simp only [EncUnit.inv, h, decide_eq_true_eq]

theorem SyncUnit.headerOk_iff {u : SyncUnit} :
    u.headerOk = true ↔ u.buf[0]? = some Config.magic ∧ u.buf[1]? = some u.len := by
  simp only [SyncUnit.headerOk, Bool.and_eq_true, beq_iff_eq]

theorem SyncUnit.inv_seeking {u : SyncUnit} (h : u.state = .seeking) :
    u.inv = true ↔ u.buf = [] ∧ u.len = 0#8 ∧ u.cnt = 0#8 := by
  simp [SyncUnit.inv, SyncUnit.n, h, and_assoc]

theorem SyncUnit.inv_length {u : SyncUnit} (h : u.state = .length) :
    u.inv = true ↔ u.buf = [Config.magic] ∧ u.len = 0#8 ∧ u.cnt = 0#8 := by
  rcases hb : u.buf with _ | ⟨b, _ | _⟩ <;> simp [SyncUnit.inv, SyncUnit.n, h, hb, and_assoc]

theorem SyncUnit.inv_command {u : SyncUnit} (h : u.state = .command) :
    u.inv = true ↔ u.buf = [Config.magic, u.len] ∧ u.cnt = 0#8 := by
  rcases hb : u.buf with _ | ⟨b, _ | ⟨c, _ | _⟩⟩ <;>
    simp [SyncUnit.inv, SyncUnit.n, SyncUnit.headerOk, h, hb, and_assoc]

theorem SyncUnit.inv_data {u : SyncUnit} (h : u.state = .data) :
    u.inv = true ↔ u.buf.length = 3 + u.cnt.toNat ∧ u.headerOk = true ∧
      1 ≤ u.len.toNat ∧ u.cnt.toNat < u.len.toNat := by
  simp only [SyncUnit.inv, SyncUnit.n, h, Bool.and_eq_true, beq_iff_eq, decide_eq_true_eq, and_assoc]

theorem SyncUnit.inv_crcHigh {u : SyncUnit} (h : u.state = .crcHigh) :
    u.inv = true ↔ u.buf.length = 3 + u.len.toNat ∧ u.headerOk = true ∧ u.cnt = u.len := by
  simp only [SyncUnit.inv, SyncUnit.n, h, Bool.and_eq_true, beq_iff_eq, and_assoc]

theorem SyncUnit.inv_crcLow {u : SyncUnit} (h : u.state = .crcLow) :
    u.inv = true ↔ u.buf.length = 4 + u.len.toNat ∧ u.headerOk = true ∧ u.cnt = u.len := by
  simp only [SyncUnit.inv, SyncUnit.n, h, Bool.and_eq_true, beq_iff_eq, and_assoc]

/-- The canonical units that reset, completed frames and aborts leave have their invariants. -/
theorem canonical_inv :
    CkUnit.cleared.inv = true ∧ EncUnit.idle.inv = true ∧ DecUnit.empty.inv = true ∧ SyncUnit.seeking.inv = true := by
  decide

/-- An append keeps the header of the frame in progress (R51). -/
theorem SyncUnit.headerOk_append {u v : SyncUnit} {b : Byte} (h : u.headerOk = true)
    (hb : v.buf = u.buf ++ [b]) (hl : v.len = u.len) : v.headerOk = true := by
  rw [headerOk_iff] at *
  have h0 : 0 < u.buf.length := (List.getElem?_eq_some_iff.mp h.1).1
  have h1 : 1 < u.buf.length := (List.getElem?_eq_some_iff.mp h.2).1
  rw [hb, hl, List.getElem?_append_left h0, List.getElem?_append_left h1]
  exact h

/-- A synchronizer that meets its invariant has room for one more byte (R30, R204). -/
theorem SyncUnit.room_of_inv {u : SyncUnit} (h : u.inv = true) : u.buf.length < Config.bufCap := by
  have hl := u.len.isLt
  have hc := u.cnt.isLt
  show u.buf.length < 260
  rcases hs : u.state
  · simp [((inv_seeking hs).mp h).1]
  · simp [((inv_length hs).mp h).1]
  · simp [((inv_command hs).mp h).1]
  · have := (inv_data hs).mp h; omega
  · have := (inv_crcHigh hs).mp h; omega
  · have := (inv_crcLow hs).mp h; omega

end Sys2Proof.Machine
end

