-- ==== Sys2Proof/Laws/PerInstr.lean ====
section
/-! SUPPORT. A family over the constructors of `Instr`: the two fields of an operation's word are its opcode and its
argument, and the word is legal (30_encoding.md R80 to R82). -/

namespace Sys2Proof.Laws.EncodedFields

/-- The encoded word's fields, and its legality. -/
def Statement (i : Instr) : Prop :=
  opField (encode i) = i.opcode ∧ argField (encode i) = i.argument ∧ legalWord (encode i) = true

/-- The fields are right for every operation; its legality is left to show. -/
theorem of_legal {i : Instr}
    (h : (takesArgument i.opcode || (takesNoArgument i.opcode && i.argument == 0#8)) = true) : Statement i := by
  refine ⟨opField_opWord _ _, argField_opWord _ _, ?_⟩
  unfold legalWord encode
  rw [opField_opWord, argField_opWord]
  exact h

theorem ckClr : Statement .ckClr := of_legal (by decide)
theorem ckByte (b : Byte) : Statement (.ckByte b) := of_legal (by rfl)
theorem ckRead : Statement .ckRead := of_legal (by decide)
theorem encLen (l : Byte) : Statement (.encLen l) := of_legal (by rfl)
theorem encCmd (c : Byte) : Statement (.encCmd c) := of_legal (by rfl)
theorem encData (d : Byte) : Statement (.encData d) := of_legal (by rfl)
theorem encAbort : Statement .encAbort := of_legal (by decide)
theorem decByte (b : Byte) : Statement (.decByte b) := of_legal (by rfl)
theorem decEnd : Statement .decEnd := of_legal (by decide)
theorem decClr : Statement .decClr := of_legal (by decide)
theorem syncByte (b : Byte) : Statement (.syncByte b) := of_legal (by rfl)
theorem syncAbort : Statement .syncAbort := of_legal (by decide)
theorem statRead : Statement .statRead := of_legal (by decide)

end Sys2Proof.Laws.EncodedFields
end

