-- ==== Sys2Proof/Laws/Runs.lean ====
section
/-! SUPPORT. Runs of operations: one operation at a time, and one list of operations after another. -/

namespace Sys2Proof.Machine

@[simp] theorem execAll_nil (s : State) : execAll [] s = .next s := rfl

theorem execAll_cons_next {i : Instr} {s t : State} (h : exec i s = .next t) (is : List Instr) :
    execAll (i :: is) s = execAll is t := by
  simp [execAll, h]

/-- A run that ends took its first operation, and the rest of it ends the same way. -/
theorem execAll_cons_eq_next {i : Instr} {is : List Instr} {s u : State} :
    execAll (i :: is) s = .next u ↔ ∃ t, exec i s = .next t ∧ execAll is t = .next u := by
  rw [execAll]
  split <;> simp_all

/-- Two runs one after the other are one run. -/
theorem execAll_append_eq_next {is js : List Instr} {s u : State} :
    execAll (is ++ js) s = .next u ↔ ∃ t, execAll is s = .next t ∧ execAll js t = .next u := by
  induction is generalizing s with
  | nil => simp
  | cons i is ih => simp only [List.cons_append, execAll_cons_eq_next, ih]; aesop

end Sys2Proof.Machine
end

