-- ==== Sys2Proof/Tests/Slice0.lean ====
section
/-! SUPPORT. Tests: the well-formedness smoke, words written out bit by bit from 30_encoding.md R80 and R81, single steps
whose results are the spec's own examples and vectors (95_test_vectors.md), and a witness for the hypotheses of each
statement. -/

namespace Sys2Proof.Tests

open Sys2Proof.Machine

/-! ## Well-formedness -/

theorem test_payload_256_refused : payloadWf (List.replicate 256 0#8) = false := by decide +kernel
theorem test_payload_255_accepted : payloadWf (List.replicate 255 0#8) = true := by decide +kernel
theorem test_buffer_261_refused : fitsBuffer (List.replicate 261 0#8) = false := by decide +kernel
theorem test_word_unassigned_refused : legalWord 0x0000#16 = false ∧ legalWord 0x4100#16 = false := by decide
theorem test_word_nonzero_argument_refused : legalWord 0x2101#16 = false := by decide
theorem test_send_256_refused : (Line.send 0x01#8 (List.replicate 256 0#8)).words = none := by decide +kernel

/-! ## Words of the 13 operations (R80, R81) -/

theorem test_decode_ckClr : decode 0b0000000100000000#16 = .instr .ckClr := by decide
theorem test_decode_ckByte : decode 0b0000001010000001#16 = .instr (.ckByte 0x81#8) := by decide
theorem test_decode_ckRead : decode 0b0000001100000000#16 = .instr .ckRead := by decide
theorem test_decode_encLen : decode 0b0001000011111111#16 = .instr (.encLen 0xFF#8) := by decide
theorem test_decode_encCmd : decode 0b0001000100011011#16 = .instr (.encCmd 0x1B#8) := by decide
theorem test_decode_encData : decode 0b0001001000000001#16 = .instr (.encData 0x01#8) := by decide
theorem test_decode_encAbort : decode 0b0001001100000000#16 = .instr .encAbort := by decide
theorem test_decode_decByte : decode 0b0010000000101010#16 = .instr (.decByte 0x2A#8) := by decide
theorem test_decode_decEnd : decode 0b0010000100000000#16 = .instr .decEnd := by decide
theorem test_decode_decClr : decode 0b0010001000000000#16 = .instr .decClr := by decide
theorem test_decode_syncByte : decode 0b0011000010000000#16 = .instr (.syncByte 0x80#8) := by decide
theorem test_decode_syncAbort : decode 0b0011000100000000#16 = .instr .syncAbort := by decide
theorem test_decode_statRead : decode 0b0100000000000000#16 = .instr .statRead := by decide
theorem test_decode_0x13FF : decode 0x13FF#16 = .illegal (.nonzeroArgument 0x13#8 0xFF#8) := by decide
theorem test_decode_0xFFFF : decode 0xFFFF#16 = .illegal (.unassignedOpcode 0xFF#8) := by decide
theorem test_tableWord_ckByte : decodeTableWord 16 0x022A = some (.ckByte 0x2A#8) := by decide

/-- R86's examples: CK_BYTE 0x2A is 0x022A, DEC_END is 0x2100. -/
theorem test_assemble_examples :
    assembleLine "CK_BYTE 0x2A".toList = some [0x022A#16] ∧ assembleLine "DEC_END ; done".toList = some [0x2100#16] := by
  decide

/-- The expansion of SEND in program P2, and a raw word. -/
theorem test_assemble_send :
    assemble ["SEND 0x1B, [0x00, 1]".toList, ".word 0x2101".toList] =
      some [0x1002#16, 0x111B#16, 0x1200#16, 0x1201#16, 0x2101#16] := by decide

/-! ## Functions -/

/-- 95_test_vectors.md S1. -/
theorem test_checksum_S1 : checksum 0x2A#8 [0x00#8, 0x01#8] = 0x9509#16 := by decide
/-- 95_test_vectors.md section 2.1, "123456789". -/
theorem test_checksum_digits :
    checksum 0x31#8 [0x32#8, 0x33, 0x34, 0x35, 0x36, 0x37, 0x38, 0x39] = 0xCF0E#16 := by decide
/-- The single steps of 95_test_vectors.md section 2.1. -/
theorem test_ckStep_table : ckStep 0x1234#16 0x56#8 = 0x3C40#16 ∧ ckStep 0x8000#16 0x00#8 = 0x9188#16 := by decide
/-- 95_test_vectors.md S2. -/
theorem test_encode_S2 : frameEncode 0x1B#8 [0x00#8, 0x01] = [0x2A#8, 0x02, 0x1B, 0x00, 0x01, 0x0F, 0xDC] := by decide
/-- 95_test_vectors.md S3. -/
theorem test_decode_S3 :
    frameDecode [0x2A#8, 0x04, 0x0A, 0xD4, 0x00, 0x00, 0x0A, 0xCD, 0xAD] =
      .ok 0x0A#8 [0xD4#8, 0x00, 0x00, 0x0A] := by decide
/-- 95_test_vectors.md S5: which value is `expected`. -/
theorem test_decode_S5 :
    frameDecode [0x2A#8, 0x00, 0x00, 0x00, 0x01] = .err (.invalidCrc 0x0001#16 0x8528#16) := by decide
/-- Magic wins over too short, length over checksum (95_test_vectors.md section 2.4). -/
theorem test_decode_order :
    frameDecode [0x00#8, 0x00] = .err (.invalidMagic 0x00#8) ∧
    frameDecode [0x2A#8, 0x00, 0x01, 0x95] = .err (.frameTooShort 0x04#8) ∧
    frameDecode [0x2A#8, 0x05, 0x0A, 0xD4, 0x00, 0x00, 0x0A, 0xCD, 0xAC] =
      .err (.invalidFrameLength 0x05#8 0x04#8) := by decide

/-! ## Single steps -/

/-- A state that differs from reset in its CK unit only. -/
def ckState (acc : Word) : State := State.reset.withCk { acc := acc, empty := false }

/-- A state that differs from reset in its ENC unit only. -/
def encState (st : EncState) (len rem : Byte) (acc : Word) : State :=
  State.reset.withEnc { state := st, len := len, rem := rem, acc := acc }

/-- A state that differs from reset in its DEC unit only. -/
def decState (buf : Memory) : State := State.reset.withDec { buf := buf }

/-- A state that differs from reset in its SYNC unit only. -/
def syncState (st : SyncState) (buf : Memory) (len cnt : Byte) : State :=
  State.reset.withSync { state := st, buf := buf, len := len, cnt := cnt }

/-- R110's example. -/
theorem test_ckClr : nextOf (exec .ckClr (ckState 0x9509#16)) = some State.reset := by decide
/-- R111's example, and the first byte, which is loaded (V-CK-2). -/
theorem test_ckByte_steps : nextOf (exec (.ckByte 0x01#8) (ckState 0x2A00#16)) = some (ckState 0x9509#16) := by decide
theorem test_ckByte_loads : nextOf (exec (.ckByte 0x2A#8) State.reset) = some (ckState 0x002A#16) := by decide
/-- V-CK-3 and V-CK-1. -/
theorem test_ckRead : nextOf (exec .ckRead (ckState 0x2A00#16)) = some ((ckState 0x2A00#16).emit [.ckv 0x2A00#16]) := by
  decide
theorem test_ckRead_empty : (nextOf (exec .ckRead State.reset)).map (fun t => (t.fault, t.events)) =
    some (0b0001#4, [.err .ck 0x10#8 .none]) := by decide
/-- R133's example, and V-ENC-5. -/
theorem test_encLen : nextOf (exec (.encLen 0x02#8) State.reset) = some (encState .haveLen 0x02#8 0#8 0#16) := by decide
theorem test_encLen_sequence :
    (nextOf (exec (.encLen 0x05#8) (encState .payload 2#8 2#8 0#16))).map (fun t => (t.enc.rem, t.fault, t.events)) =
      some (2#8, 0b0100#4, [.err .enc 0x12#8 (.word 0x1005#16)]) := by decide
/-- V-ENC-1 and S2's second row. -/
theorem test_encCmd_empty : nextOf (exec (.encCmd 0x01#8) (encState .haveLen 0#8 0#8 0#16)) =
    some (State.reset.emit [.tx 0x2A#8, .tx 0x00#8, .tx 0x01#8, .tx 0x95#8, .tx 0x09#8]) := by decide
theorem test_encCmd_header : (nextOf (exec (.encCmd 0x1B#8) (encState .haveLen 2#8 0#8 0#16))).map
    (fun t => (t.enc.state, t.enc.rem, t.events)) =
      some (.payload, 2#8, [.tx 0x2A#8, .tx 0x02#8, .tx 0x1B#8]) := by decide
/-- S2's last row: the checksum of the frame is 0x0FDC. -/
theorem test_encData_last :
    nextOf (exec (.encData 0x01#8) (encState .payload 2#8 1#8 (checksum 0x2A#8 [0x02#8, 0x1B, 0x00]))) =
      some (State.reset.emit [.tx 0x01#8, .tx 0x0F#8, .tx 0xDC#8]) := by decide
/-- V-ENC-6: one byte too many. -/
theorem test_encData_sequence : (nextOf (exec (.encData 0x22#8) State.reset)).map (·.events) =
    some [.err .enc 0x12#8 (.word 0x1222#16)] := by decide
theorem test_encAbort : nextOf (exec .encAbort (encState .payload 3#8 2#8 0x1234#16)) = some State.reset := by decide
/-- R170's example, and V-DEC-5. -/
theorem test_decByte : nextOf (exec (.decByte 0x2A#8) State.reset) = some (decState [0x2A#8]) := by decide
theorem test_decByte_full : (nextOf (exec (.decByte 0xEE#8) (decState (List.replicate 260 0#8)))).map
    (fun t => (t.dec.n, t.fault, t.events)) = some (260, 0b1000#4, [.err .dec 0x13#8 (.byte 0xEE#8)]) := by decide +kernel
/-- V-DEC-1 and V-DEC-3. -/
theorem test_decEnd_empty : nextOf (exec .decEnd State.reset) =
    some (State.reset.emit [.err .dec 0x04#8 (.byte 0#8)]) := by decide
theorem test_decEnd_two_frames :
    nextOf (exec .decEnd (decState [0x2A#8, 0x00, 0x01, 0x95, 0x09, 0x2A, 0x00, 0x01, 0x95, 0x09])) =
      some (State.reset.emit [.err .dec 0x02#8 (.lengths 0x00#8 0x05#8)]) := by decide
theorem test_decClr : nextOf (exec .decClr (decState [0x2A#8, 0x00, 0x01])) = some State.reset := by decide
/-- V-SYNC-2's fourth row: the payload byte 0x2A ends a payload of one byte. -/
theorem test_syncByte_data : nextOf (exec (.syncByte 0x2A#8) (syncState .data [0x2A#8, 0x01, 0x2A] 1#8 0#8)) =
    some (syncState .crcHigh [0x2A#8, 0x01, 0x2A, 0x2A] 1#8 1#8) := by decide
/-- V-SYNC-4's eighth row. -/
theorem test_syncByte_crc :
    nextOf (exec (.syncByte 0xCD#8) (syncState .crcLow [0x2A#8, 0x03, 0x0A, 0xD4, 0x00, 0x00, 0x0A] 3#8 3#8)) =
      some (State.reset.emit [.err .sync 0x03#8 (.sums 0x0ACD#16 0x60C8#16)]) := by decide
/-- R199's example. -/
theorem test_syncAbort : nextOf (exec .syncAbort (syncState .data [0x2A#8, 0x04, 0x0A] 4#8 0#8)) = some State.reset := by
  decide
/-- 95_test_vectors.md section 2.6. -/
theorem test_statRead : (nextOf (exec .statRead (syncState .crcLow [] 0#8 0#8))).map (·.events) = some [.stv 0x0510#16] := by
  decide
theorem test_statRead_enc : (nextOf (exec .statRead (encState .payload 1#8 1#8 0#16))).map (·.events) =
    some [.stv 0x0050#16] := by decide
/-- R231's example, through the step. -/
theorem test_step_illegal : (nextOf (step (State.reset.withFetchWord 16 0x5000))).map (fun t => (t.fault, t.events)) =
    some (0b0010#4, [.err .ctrl 0x11#8 (.word 0x5000#16)]) := by decide
theorem test_step_reset : nextOf (step ((ckState 0x9509#16).issue [.reset])) = some State.reset := by decide

/-! ## Witnesses: states and operands that meet the hypotheses of each statement -/

/-- The state after reset with inputs the host has issued. -/
def issued (is : List Input) : State := State.reset.issue is

theorem witness_ResetInputRestoresEveryElement :
    ((ckState 0x1234#16).issue [.reset]).input = [.reset] ∧
    (issued [.word 0x0300#16]).input.head? ≠ some .reset ∧ (nextOf (step (issued [.word 0x0300#16]))).isSome := by decide
theorem witness_EveryStepKeepsInvariant :
    (issued [.word 0x302A#16]).inv = true ∧ (nextOf (step (issued [.word 0x302A#16]))).isSome := by decide
theorem witness_EveryStepCompletesUnderInvariant :
    (syncState .crcLow (0x2A#8 :: 0xFF#8 :: List.replicate 257 0#8) 0xFF#8 0xFF#8).inv = true := by decide +kernel
theorem witness_StepRunsDecodedOperation :
    (issued [.word 0x02FF#16, .reset]).input = [.word 0x02FF#16, .reset] ∧
    decode 0x02FF#16 = .instr (.ckByte 0xFF#8) ∧ (Instr.ckByte 0xFF#8).wellFormed = true := by decide
theorem witness_StepWithoutInputWaits : State.reset.input = [] := by decide
theorem witness_IllegalWordRaisesIllegalOp :
    (issued [.word 0x4101#16]).input = [.word 0x4101#16] ∧
    opField 0x4101#16 ∉ [0x01#8, 0x02, 0x03, 0x10, 0x11, 0x12, 0x13, 0x20, 0x21, 0x22, 0x30, 0x31, 0x40] ∧
    opField 0x01FF#16 ∈ [0x01#8, 0x03, 0x13, 0x21, 0x22, 0x31, 0x40] ∧ argField 0x01FF#16 ≠ 0x00#8 := by decide
theorem witness_LegalWordsAreExactly1543 :
    (issued [.word (0x40#8 ++ 0x01#8)]).input = [.word (0x40#8 ++ 0x01#8)] ∧
    0x40#8 ∈ [0x01#8, 0x03, 0x13, 0x21, 0x22, 0x31, 0x40] ∧ 0x01#8 ≠ 0x00#8 := by decide
theorem witness_OpcodeMapDecodes :
    0x41#8 ∉ [0x01#8, 0x02, 0x03, 0x10, 0x11, 0x12, 0x13, 0x20, 0x21, 0x22, 0x30, 0x31, 0x40] := by decide
theorem witness_DecodeInvertsEncode :
    Instr.statRead.wellFormed = true ∧ decode 0x30FF#16 = .instr (.syncByte 0xFF#8) := by decide
theorem witness_AssembledOperationIsItsWord : (Instr.encLen 0xFF#8).wellFormed = true := by decide
theorem witness_payload_of_255_bytes : (List.replicate 255 0#8 : List Byte).length ≤ 255 := by decide +kernel
theorem witness_PseudoOperationsExpand : ([] : List Byte).length ≤ 255 := by decide
theorem witness_ChecksumArithmeticLaws : (0x00#8 : Byte) ≠ 0xFF#8 := by decide
theorem witness_CkReadReportsOrFaults : (ckState 0#16).ck.empty = false ∧ State.reset.ck.empty = true := by decide
theorem witness_EncLenAnnouncesLength :
    State.reset.enc.state = .idle ∧ (encState .payload 1#8 1#8 0#16).enc.state ≠ .idle := by decide
theorem witness_EncCmdEmitsHeader :
    (encState .haveLen 0#8 0#8 0#16).enc.state = .haveLen ∧ (encState .haveLen 0#8 0#8 0#16).enc.len = 0#8 ∧
    (encState .haveLen 0xFF#8 0#8 0#16).enc.state = .haveLen ∧ (encState .haveLen 0xFF#8 0#8 0#16).enc.len ≠ 0#8 ∧
    State.reset.enc.state ≠ .haveLen := by decide
theorem witness_EncDataEmitsPayloadByte :
    (encState .payload 2#8 2#8 0#16).enc.state = .payload ∧ 1 < (encState .payload 2#8 2#8 0#16).enc.rem.toNat ∧
    (encState .payload 2#8 1#8 0#16).enc.state = .payload ∧ (encState .payload 2#8 1#8 0#16).enc.rem.toNat = 1 ∧
    (encState .haveLen 2#8 0#8 0#16).enc.state ≠ .payload := by decide
theorem witness_EncoderStreamEqualsEncode :
    State.reset.inv = true ∧ State.reset.enc.state = .idle ∧ ([0x2A#8] : List Byte).length ≤ 255 ∧
    opsOf .enc [.encLen 1#8, .syncByte 0x2A#8, .encCmd 0x07#8, .ckRead, .encData 0x2A#8, .statRead] =
      .encLen (BitVec.ofNat 8 1) :: .encCmd 0x07#8 :: [0x2A#8].map .encData := by decide
theorem witness_DecodeReportsFirstFailingCheck :
    ([] : List Byte).length ≤ 255 ∧ ([0x00#8, 0x00#8, 0x00#8] : List Byte).length < 4 := by decide
theorem witness_SingleByteTamperIsDetected :
    ([] : List Byte).length ≤ 255 ∧ 4 < (frameEncode 0x01#8 []).length ∧
    (frameEncode 0x01#8 [])[0]? ≠ some 0x2B#8 ∧ (frameEncode 0x01#8 [])[1]? ≠ some 0x01#8 ∧
    (frameEncode 0x01#8 [])[2]? ≠ some 0x00#8 ∧ (frameEncode 0x01#8 [])[4]? ≠ some 0x00#8 := by decide
theorem witness_TwoFramesInOneCandidateFail :
    (List.replicate 125 0#8 : List Byte).length + (List.replicate 125 0#8 : List Byte).length + 10 ≤ 260 := by decide +kernel
theorem witness_DecByteAppendsOrOverflows :
    (decState (List.replicate 259 0#8)).dec.n < 260 ∧ (decState (List.replicate 260 0#8)).dec.n = 260 := by decide +kernel
theorem witness_DecEndDecodesAndEmpties :
    frameDecode (decState [0x2A#8, 0x00, 0x01, 0x95, 0x09]).dec.buf = .ok 0x01#8 [] ∧
    frameDecode (decState []).dec.buf = .err (.frameTooShort 0#8) := by decide
theorem witness_DecoderRunEqualsDecode :
    State.reset.dec.n = 0 ∧ (List.replicate 260 0#8 : List Byte).length ≤ 260 := by decide +kernel
theorem witness_SyncByteTransitions_start :
    State.reset.sync.n < 260 ∧ State.reset.sync.state = .seeking ∧
    (syncState .length [0x2A#8] 0#8 0#8).sync.n < 260 ∧ (syncState .length [0x2A#8] 0#8 0#8).sync.state = .length ∧
    (syncState .command [0x2A#8, 0x00] 0#8 0#8).sync.n < 260 ∧
    (syncState .command [0x2A#8, 0x00] 0#8 0#8).sync.state = .command := by decide
/-- A payload byte of a frame in progress, and the longest frame before its last byte. -/
theorem witness_SyncByteTransitions_end :
    (syncState .data [0x2A#8, 0x01, 0x00] 1#8 0#8).sync.n < 260 ∧
    (syncState .data [0x2A#8, 0x01, 0x00] 1#8 0#8).sync.cnt.toNat < (syncState .data [0x2A#8, 0x01, 0x00] 1#8 0#8).sync.len.toNat ∧
    (syncState .crcHigh [0x2A#8, 0x00, 0x00] 0#8 0#8).sync.n < 260 ∧
    (syncState .crcLow (0x2A#8 :: 0xFF#8 :: List.replicate 257 0#8) 0xFF#8 0xFF#8).sync.n < 260 := by decide +kernel
theorem witness_SyncBufferFrame :
    (nextOf (exec (.syncByte 0x2A#8) State.reset)).isSome ∧ State.reset.sync.state ≠ .crcLow ∧
    260 ≤ (syncState .crcHigh (List.replicate 260 0#8) 0#8 0#8).sync.n ∧
    (syncState .crcHigh (List.replicate 260 0#8) 0#8 0#8).sync.state ≠ .seeking := by decide +kernel
theorem witness_NoiseIsDiscarded :
    State.reset.inv = true ∧ State.reset.sync.state = .seeking ∧
    (∀ b ∈ ([0x00#8, 0x29#8, 0x2B#8, 0xFF#8] : List Byte), b ≠ 0x2A#8) := by decide
theorem witness_SynchronizerReceivesEncodedFrame :
    State.reset.inv = true ∧ State.reset.sync.state = .seeking ∧
    (∀ b ∈ ([0x13#8] : List Byte), b ≠ 0x2A#8) ∧ ([0xD4#8, 0x00#8] : List Byte).length ≤ 255 := by decide
theorem witness_SynchronizerReceives_longest_payload :
    State.reset.inv = true ∧ State.reset.sync.state = .seeking ∧ (∀ b ∈ ([] : List Byte), b ≠ 0x2A#8) ∧
    (List.replicate 255 0#8 : List Byte).length ≤ 255 := by decide +kernel
theorem witness_SynchronizerWaitsForWholeFrame :
    State.reset.inv = true ∧ State.reset.sync.state = .seeking ∧
    ([0x00#8, 0x00#8] : List Byte).length < 3 + (0x00#8).toNat ∧
    (List.replicate 258 0#8 : List Byte).length = 3 + (0xFF#8).toNat := by decide +kernel
theorem witness_SynchronizerWaits_other_word :
    (issued [.word 0x4000#16]).input = [.word 0x4000#16] ∧ decode 0x4000#16 = .instr .statRead ∧
    decode 0x4000#16 ≠ .instr .syncAbort ∧ (nextOf (step (issued [.word 0x4000#16]))).isSome := by decide
theorem witness_SynchronizerReportsOnlyInvalidCrc :
    (syncState .crcLow [0x2A#8, 0x00, 0x00, 0x00] 0#8 0#8).inv = true ∧
    (syncState .crcLow [0x2A#8, 0x00, 0x00, 0x00] 0#8 0#8).sync.state = .crcLow ∧
    (nextOf (exec (.syncByte 0x01#8) (syncState .crcLow [0x2A#8, 0x00, 0x00, 0x00] 0#8 0#8))).map
      (newEvents (syncState .crcLow [0x2A#8, 0x00, 0x00, 0x00] 0#8 0#8)) =
      some [.err .sync 0x03#8 (.sums 0x0001#16 0x8528#16)] := by decide
theorem witness_UsageFaultIsPrecise :
    (nextOf (step (issued [.word 0x0300#16]))).map (newEvents (issued [.word 0x0300#16])) =
      some [.err .ck 0x10#8 .none] ∧ 0x10 ≤ (0x10#8).toNat ∧
    (issued [.word 0x0300#16]).input.head? ≠ some .reset ∧
    Instr.ckRead ≠ .statRead ∧ (nextOf (exec .ckRead State.reset)).isSome := by decide
theorem witness_DecodeErrorSetsNoFaultBit :
    (nextOf (step (issued [.word 0x2100#16]))).map (newEvents (issued [.word 0x2100#16])) =
      some [.err .dec 0x04#8 (.byte 0#8)] ∧ (0x04#8).toNat < 0x10 := by decide
theorem witness_AtMostOneErrorPerOperation :
    (nextOf (step (issued [.word 0x2101#16]))).map (newEvents (issued [.word 0x2101#16])) =
      some [.err .ctrl 0x11#8 (.word 0x2101#16)] ∧ (decode 0x2101#16).instr? = none ∧
    (nextOf (exec .ckRead State.reset)).map (newEvents State.reset) = some [.err .ck 0x10#8 .none] := by decide
theorem witness_OutputStreamOnlyGrows :
    (nextOf (step (issued [.word 0x4000#16]))).isSome ∧ (nextOf (exec .statRead State.reset)).isSome ∧
    (∀ c ∈ [0x00#8], Instr.statRead ≠ .encCmd c) := by decide
theorem witness_UnitStateIsPrivate :
    (nextOf (exec (.ckByte 0x01#8) State.reset)).isSome ∧ unitOf (.ckByte 0x01#8) = .ck ∧
    State.reset.ck = (decState [0x2A#8]).ck := by decide
theorem witness_InterleavingDoesNotMatter : State.reset.inv = true ∧ Src.sync ≠ .ctrl := by decide

end Sys2Proof.Tests
end

section
/-! Locality of the operations (10_state.md R27). One notion, `ActsOn u f s t`, says what an operation `f` of unit `u`
did when it led from `s` to `t`: it replaced that unit's elements, emitted some events and set some fault bits, and it
does exactly the same at every state that agrees with `s` on the unit. Both halves of R27 follow from it. -/

namespace Sys2Proof.Machine

/-! ## What an operation may write -/

/-- `s` with the elements of unit `u` taken from `v`; CTRL has none of its own but the fault bits (R24). -/
def State.withUnitOf (s : State) (u : Src) (v : State) : State :=
  match u with
  | .ck => s.withCk v.ck
  | .enc => s.withEnc v.enc
  | .dec => s.withDec v.dec
  | .sync => s.withSync v.sync
  | .ctrl => s

/-- `s` after more events and with more sticky fault bits set (R84, R24). -/
def State.report (s : State) (new : List Event) (m : BitVec 4) : State :=
  { s with fault := s.fault ||| m, events := s.events ++ new }

@[simp] theorem State.report_ck (s : State) (new : List Event) (m : BitVec 4) : (s.report new m).ck = s.ck := rfl
@[simp] theorem State.report_enc (s : State) (new : List Event) (m : BitVec 4) : (s.report new m).enc = s.enc := rfl
@[simp] theorem State.report_dec (s : State) (new : List Event) (m : BitVec 4) : (s.report new m).dec = s.dec := rfl
@[simp] theorem State.report_sync (s : State) (new : List Event) (m : BitVec 4) : (s.report new m).sync = s.sync := rfl
@[simp] theorem State.report_fault (s : State) (new : List Event) (m : BitVec 4) :
    (s.report new m).fault = s.fault ||| m := rfl
@[simp] theorem State.report_events (s : State) (new : List Event) (m : BitVec 4) :
    (s.report new m).events = s.events ++ new := rfl
@[simp] theorem State.report_input (s : State) (new : List Event) (m : BitVec 4) :
    (s.report new m).input = s.input := rfl

theorem State.report_nil_zero (s : State) : s.report [] 0#4 = s := by simp [State.report]

theorem State.emit_eq_report (s : State) (es : List Event) : s.emit es = s.report es 0#4 := by
  simp [State.emit, State.report]

theorem State.raiseUsageFault_eq_report (s : State) (e : UsageFault) :
    s.raiseUsageFault e = s.report [e.event] e.mask := rfl

@[simp] theorem State.withUnitOf_fault (s : State) (u : Src) (v : State) : (s.withUnitOf u v).fault = s.fault := by
  cases u <;> rfl

@[simp] theorem State.withUnitOf_events (s : State) (u : Src) (v : State) : (s.withUnitOf u v).events = s.events := by
  cases u <;> rfl

@[simp] theorem State.withUnitOf_input (s : State) (u : Src) (v : State) : (s.withUnitOf u v).input = s.input := by
  cases u <;> rfl

theorem State.withUnitOf_ck_of_ne {u : Src} (h : u ≠ .ck) (s v : State) : (s.withUnitOf u v).ck = s.ck := by
  cases u <;> simp_all [State.withUnitOf]

theorem State.withUnitOf_enc_of_ne {u : Src} (h : u ≠ .enc) (s v : State) : (s.withUnitOf u v).enc = s.enc := by
  cases u <;> simp_all [State.withUnitOf]

theorem State.withUnitOf_dec_of_ne {u : Src} (h : u ≠ .dec) (s v : State) : (s.withUnitOf u v).dec = s.dec := by
  cases u <;> simp_all [State.withUnitOf]

theorem State.withUnitOf_sync_of_ne {u : Src} (h : u ≠ .sync) (s v : State) : (s.withUnitOf u v).sync = s.sync := by
  cases u <;> simp_all [State.withUnitOf]

theorem sameUnit_refl (u : Src) (s : State) : sameUnit u s s := by
  cases u <;> rfl

/-- A unit of its own is the same in both states once it is taken from one of them. -/
theorem sameUnit_withUnitOf_report {u : Src} (hu : u ≠ .ctrl) (s v : State) (new : List Event) (m : BitVec 4) :
    sameUnit u v ((s.withUnitOf u v).report new m) := by
  cases u with
  | ctrl => exact absurd rfl hu
  | ck | enc | dec | sync => rfl

/-- Taking a unit from a state that already agrees on it changes nothing. -/
theorem State.withUnitOf_eq_self {u : Src} {s v : State} (h : sameUnit u v s) : s.withUnitOf u v = s := by
  cases u with
  | ctrl => rfl
  | ck | enc | dec | sync => cases s; cases h; rfl

/-! ## Acting on one unit -/

/-- What `f` did from `s` to `t` is an action on unit `u`: at every state that agrees with `s` on `u` it completes,
gives the unit the elements it has in `t`, and reports the same events and fault bits (R27). -/
def ActsOn (u : Src) (f : State → Host.Outcome State Fault Refusal) (s t : State) : Prop :=
  ∃ (new : List Event) (m : BitVec 4), ∀ s', sameUnit u s s' → f s' = .next ((s'.withUnitOf u t).report new m)

section Actions

variable {u : Src} {f : State → Host.Outcome State Fault Refusal} {s t : State}

/-- An operation that writes its unit and reports nothing. -/
theorem ActsOn.of_update (h : ∀ s', sameUnit u s s' → f s' = .next (s'.withUnitOf u t)) : ActsOn u f s t :=
  ⟨[], 0#4, fun s' hs => by rw [State.report_nil_zero]; exact h s' hs⟩

/-- An operation that writes its unit and emits events. -/
theorem ActsOn.of_emit (es : List Event)
    (h : ∀ s', sameUnit u s s' → f s' = .next ((s'.withUnitOf u t).emit es)) : ActsOn u f s t :=
  ⟨es, 0#4, fun s' hs => by rw [← State.emit_eq_report]; exact h s' hs⟩

/-- An operation of a unit that raises a usage fault, its unit left as it is (R243). -/
theorem ActsOn.of_raise (hu : u ≠ .ctrl) (e : UsageFault)
    (h : ∀ s', sameUnit u s s' → f s' = .next (s'.raiseUsageFault e)) : ActsOn u f s (s.raiseUsageFault e) := by
  refine ⟨[e.event], e.mask, fun s' hs => ?_⟩
  have hkeep : sameUnit u (s.raiseUsageFault e) s' := by
    cases u with
    | ctrl => exact absurd rfl hu
    | ck | enc | dec | sync => exact hs
  rw [State.withUnitOf_eq_self hkeep, ← State.raiseUsageFault_eq_report]
  exact h s' hs

/-- Whether an operation acts on a unit is decided by what it does at the states that agree on the unit. -/
theorem ActsOn.congr {g : State → Host.Outcome State Fault Refusal} (h : ActsOn u f s t)
    (hg : ∀ s', sameUnit u s s' → g s' = f s') : ActsOn u g s t := by
  obtain ⟨new, m, hact⟩ := h
  exact ⟨new, m, fun s' hs => (hg s' hs).trans (hact s' hs)⟩

/-! ## The operations, unit by unit -/

theorem execCkClr_actsOn (h : execCkClr s = .next t) : ActsOn .ck execCkClr s t := by
  cases h
  exact .of_update fun _ _ => rfl

theorem execCkByte_actsOn {b : Byte} (h : execCkByte b s = .next t) : ActsOn .ck (execCkByte b) s t := by
  unfold execCkByte at h
  split at h
  · next he =>
    cases h
    refine .of_update fun s' (hs : s.ck = s'.ck) => ?_
    rw [execCkByte, ← hs, if_pos he]
    rfl
  · next he =>
    cases h
    refine .of_update fun s' (hs : s.ck = s'.ck) => ?_
    rw [execCkByte, ← hs, if_neg he]
    rfl

theorem execCkRead_actsOn (h : execCkRead s = .next t) : ActsOn .ck execCkRead s t := by
  unfold execCkRead at h
  split at h
  · next he =>
    cases h
    refine .of_raise (by decide) .ckEmpty fun s' (hs : s.ck = s'.ck) => ?_
    rw [execCkRead, ← hs, if_pos he]
  · next he =>
    cases h
    refine .of_emit [.ckv s.ck.acc] fun s' (hs : s.ck = s'.ck) => ?_
    have hkeep : sameUnit .ck (s.emit [.ckv s.ck.acc]) s' := hs
    rw [execCkRead, ← hs, if_neg he, State.withUnitOf_eq_self hkeep]

theorem execEncLen_actsOn {l : Byte} (h : execEncLen l s = .next t) : ActsOn .enc (execEncLen l) s t := by
  unfold execEncLen at h
  split at h
  · next he =>
    cases h
    refine .of_raise (by decide) _ fun s' (hs : s.enc = s'.enc) => ?_
    rw [execEncLen, ← hs, if_pos he]
    rfl
  · next he =>
    cases h
    refine .of_update fun s' (hs : s.enc = s'.enc) => ?_
    rw [execEncLen, ← hs, if_neg he]
    rfl

theorem execEncCmd_actsOn {c : Byte} (h : execEncCmd c s = .next t) : ActsOn .enc (execEncCmd c) s t := by
  unfold execEncCmd at h
  split at h
  · next he =>
    cases h
    refine .of_raise (by decide) _ fun s' (hs : s.enc = s'.enc) => ?_
    rw [execEncCmd, ← hs, if_pos he]
    rfl
  · next he =>
    dsimp only at h
    split at h
    · next hl =>
      cases h
      refine .of_emit ([.tx Config.magic, .tx s.enc.len, .tx c] ++
        checksumTx (ckStep (ckStep (zext16 Config.magic) s.enc.len) c)) fun s' (hs : s.enc = s'.enc) => ?_
      rw [execEncCmd, ← hs, if_neg he, if_pos hl]
      rfl
    · next hl =>
      cases h
      refine .of_emit [.tx Config.magic, .tx s.enc.len, .tx c] fun s' (hs : s.enc = s'.enc) => ?_
      rw [execEncCmd, ← hs, if_neg he, if_neg hl]
      rfl

theorem execEncData_actsOn {d : Byte} (h : execEncData d s = .next t) : ActsOn .enc (execEncData d) s t := by
  unfold execEncData at h
  split at h
  · next he =>
    cases h
    refine .of_raise (by decide) _ fun s' (hs : s.enc = s'.enc) => ?_
    rw [execEncData, ← hs, if_pos he]
    rfl
  · next he =>
    dsimp only at h
    split at h
    · next hr =>
      cases h
      refine .of_emit (.tx d :: checksumTx (ckStep s.enc.acc d)) fun s' (hs : s.enc = s'.enc) => ?_
      rw [execEncData, ← hs, if_neg he, if_pos hr]
      rfl
    · next hr =>
      cases h
      refine .of_emit [.tx d] fun s' (hs : s.enc = s'.enc) => ?_
      rw [execEncData, ← hs, if_neg he, if_neg hr]
      rfl

theorem execEncAbort_actsOn (h : execEncAbort s = .next t) : ActsOn .enc execEncAbort s t := by
  cases h
  exact .of_update fun _ _ => rfl

theorem execDecByte_actsOn {b : Byte} (h : execDecByte b s = .next t) : ActsOn .dec (execDecByte b) s t := by
  unfold execDecByte at h
  split at h
  · next hb =>
    cases h
    refine .of_raise (by decide) _ fun s' (hs : s.dec = s'.dec) => ?_
    simp only [execDecByte, ← hs, hb]
  · next buf hb =>
    cases h
    refine .of_update fun s' (hs : s.dec = s'.dec) => ?_
    simp only [execDecByte, ← hs, hb]
    rfl

theorem execDecEnd_actsOn (h : execDecEnd s = .next t) : ActsOn .dec execDecEnd s t := by
  cases h
  refine .of_emit [decodeEvent .dec (frameDecode s.dec.buf)] fun s' (hs : s.dec = s'.dec) => ?_
  rw [execDecEnd, ← hs]
  rfl

theorem execDecClr_actsOn (h : execDecClr s = .next t) : ActsOn .dec execDecClr s t := by
  cases h
  exact .of_update fun _ _ => rfl

/-- An append of the synchronizer acts on SYNC if what follows it does, whatever buffer it is given. -/
theorem syncAppend_actsOn {b : Byte} {k : State → Memory → State} (h : syncAppend b s (k s) = .next t)
    (hk : ∀ buf, ActsOn .sync (fun s' => .next (k s' buf)) s (k s buf)) :
    ActsOn .sync (fun s' => syncAppend b s' (k s')) s t := by
  obtain ⟨hroom, rfl⟩ := syncAppend_eq_next h
  obtain ⟨new, m, hact⟩ := hk (s.sync.buf ++ [b])
  refine ⟨new, m, fun s' (hs : s.sync = s'.sync) => ?_⟩
  calc syncAppend b s' (k s') = .next (k s' (s'.sync.buf ++ [b])) := syncAppend_of_lt (hs ▸ hroom) b _
    _ = .next (k s' (s.sync.buf ++ [b])) := by rw [hs]
    _ = _ := hact s' hs

/-- A byte that is appended and then changes SYNC to what `g` makes of SYNC and the longer buffer acts on SYNC. -/
theorem syncAppend_withSync_actsOn {b : Byte} (g : SyncUnit → Memory → SyncUnit)
    (h : syncAppend b s (fun buf => s.withSync (g s.sync buf)) = .next t) :
    ActsOn .sync (fun s' => syncAppend b s' fun buf => s'.withSync (g s'.sync buf)) s t :=
  syncAppend_actsOn (k := fun s' buf => s'.withSync (g s'.sync buf)) h fun buf =>
    .of_update fun s' (hs : s.sync = s'.sync) => by rw [← hs]; rfl

theorem syncSeeking_actsOn {b : Byte} (h : syncSeeking b s = .next t) : ActsOn .sync (syncSeeking b) s t := by
  unfold syncSeeking at h ⊢
  split at h
  · next hb =>
    simp only [if_pos hb]
    exact syncAppend_withSync_actsOn (fun u buf => { u with buf := buf, state := .length }) h
  · next hb =>
    simp only [if_neg hb]
    cases h
    exact .of_update fun s' (hs : s.sync = s'.sync) => by rw [← hs]; rfl

theorem syncLength_actsOn {b : Byte} (h : syncLength b s = .next t) : ActsOn .sync (syncLength b) s t :=
  syncAppend_withSync_actsOn (fun u buf => { u with buf := buf, len := b, state := .command }) h

theorem syncCommand_actsOn {b : Byte} (h : syncCommand b s = .next t) : ActsOn .sync (syncCommand b) s t :=
  syncAppend_withSync_actsOn
    (fun u buf => { u with buf := buf, cnt := 0#8, state := if u.len = 0#8 then .crcHigh else .data }) h

theorem syncData_actsOn {b : Byte} (h : syncData b s = .next t) : ActsOn .sync (syncData b) s t :=
  syncAppend_withSync_actsOn
    (fun u buf =>
      { u with buf := buf, cnt := u.cnt + 1#8, state := if u.cnt + 1#8 = u.len then .crcHigh else .data }) h

theorem syncCrcHigh_actsOn {b : Byte} (h : syncCrcHigh b s = .next t) : ActsOn .sync (syncCrcHigh b) s t :=
  syncAppend_withSync_actsOn (fun u buf => { u with buf := buf, state := .crcLow }) h

theorem syncCrcLow_actsOn {b : Byte} (h : syncCrcLow b s = .next t) : ActsOn .sync (syncCrcLow b) s t :=
  syncAppend_actsOn (k := fun s' buf => (s'.withSync .seeking).emit [decodeEvent .sync (frameDecode buf)]) h
    fun buf => .of_emit [decodeEvent .sync (frameDecode buf)] fun _ _ => rfl

/-- The transition of each state of the synchronizer (R191 to R196). -/
def syncTransition : SyncState → Byte → State → Host.Outcome State Fault Refusal
  | .seeking => syncSeeking
  | .length => syncLength
  | .command => syncCommand
  | .data => syncData
  | .crcHigh => syncCrcHigh
  | .crcLow => syncCrcLow

/-- SYNC_BYTE is the transition that `sync.state` chooses (R198). -/
theorem execSyncByte_eq_syncTransition (b : Byte) (s : State) :
    execSyncByte b s = syncTransition s.sync.state b s := by
  unfold execSyncByte
  split <;> simp only [syncTransition, *]

theorem syncTransition_actsOn (st : SyncState) {b : Byte} (h : syncTransition st b s = .next t) :
    ActsOn .sync (syncTransition st b) s t := by
  cases st with
  | seeking => exact syncSeeking_actsOn h
  | length => exact syncLength_actsOn h
  | command => exact syncCommand_actsOn h
  | data => exact syncData_actsOn h
  | crcHigh => exact syncCrcHigh_actsOn h
  | crcLow => exact syncCrcLow_actsOn h

/-- States that agree on SYNC share `sync.state`, and with it the transition. -/
theorem execSyncByte_actsOn {b : Byte} (h : execSyncByte b s = .next t) : ActsOn .sync (execSyncByte b) s t := by
  rw [execSyncByte_eq_syncTransition] at h
  refine (syncTransition_actsOn s.sync.state h).congr fun s' (hs : s.sync = s'.sync) => ?_
  rw [execSyncByte_eq_syncTransition, hs]

theorem execSyncAbort_actsOn (h : execSyncAbort s = .next t) : ActsOn .sync execSyncAbort s t := by
  cases h
  exact .of_update fun _ _ => rfl

/-- STAT_READ reads the STATUS word and writes no unit (R230). -/
theorem execStatRead_actsOn (h : execStatRead s = .next t) : ActsOn .ctrl execStatRead s t := by
  cases h
  refine .of_emit [.stv (statusWord s)] fun s' (hs : statusWord s = statusWord s') => ?_
  rw [execStatRead, ← hs]
  rfl

/-- R27 in one lemma: every operation that completes acts on its own unit. -/
theorem exec_actsOn (i : Instr) (h : exec i s = .next t) : ActsOn (unitOf i) (exec i) s t := by
  cases i with
  | ckClr => exact execCkClr_actsOn h
  | ckByte b => exact execCkByte_actsOn h
  | ckRead => exact execCkRead_actsOn h
  | encLen l => exact execEncLen_actsOn h
  | encCmd c => exact execEncCmd_actsOn h
  | encData d => exact execEncData_actsOn h
  | encAbort => exact execEncAbort_actsOn h
  | decByte b => exact execDecByte_actsOn h
  | decEnd => exact execDecEnd_actsOn h
  | decClr => exact execDecClr_actsOn h
  | syncByte b => exact execSyncByte_actsOn h
  | syncAbort => exact execSyncAbort_actsOn h
  | statRead => exact execStatRead_actsOn h

/-! ## The two halves of R27 -/

/-- The events and fault bits of an action, at the state it was observed at and at every state that agrees with it. -/
theorem ActsOn.exists_report (h : ActsOn u f s t) (hst : f s = .next t) :
    ∃ new m, t = (s.withUnitOf u t).report new m ∧
      ∀ s', sameUnit u s s' → f s' = .next ((s'.withUnitOf u t).report new m) := by
  obtain ⟨new, m, hact⟩ := h
  exact ⟨new, m, Host.Outcome.next.inj (hst.symm.trans (hact s (sameUnit_refl u s))), hact⟩

/-- The write half: an action on a unit leaves the other units and the pending inputs as they are. -/
theorem ActsOn.frame (h : ActsOn u f s t) (hst : f s = .next t) :
    (u ≠ .ck → t.ck = s.ck) ∧ (u ≠ .enc → t.enc = s.enc) ∧ (u ≠ .dec → t.dec = s.dec) ∧
      (u ≠ .sync → t.sync = s.sync) ∧ t.input = s.input := by
  obtain ⟨new, m, ht, -⟩ := h.exists_report hst
  rw [ht]
  exact ⟨fun hu => s.withUnitOf_ck_of_ne hu t, fun hu => s.withUnitOf_enc_of_ne hu t,
    fun hu => s.withUnitOf_dec_of_ne hu t, fun hu => s.withUnitOf_sync_of_ne hu t, s.withUnitOf_input u t⟩

/-- The read half: at a state that agrees on the unit the action gives it the same elements and reports the same. -/
theorem ActsOn.noninterference (h : ActsOn u f s t) (hst : f s = .next t) {s' : State} (hs : sameUnit u s s') :
    ∃ (t' : State) (new : List Event) (m : BitVec 4), f s' = .next t' ∧ (u = .ctrl ∨ sameUnit u t t') ∧
      t.events = s.events ++ new ∧ t'.events = s'.events ++ new ∧
      t.fault = s.fault ||| m ∧ t'.fault = s'.fault ||| m := by
  obtain ⟨new, m, ht, hact⟩ := h.exists_report hst
  refine ⟨(s'.withUnitOf u t).report new m, new, m, hact s' hs, ?_, ?_, ?_, ?_, ?_⟩
  · exact (eq_or_ne u .ctrl).imp_right fun hu => sameUnit_withUnitOf_report hu s' t new m
  · rw [ht]; simp
  · simp
  · rw [ht]; simp
  · simp

end Actions

/-- Settles O51: every operation acts on its own unit, and an action on a unit has both halves of R27. -/
theorem unitStateIsPrivate : Obligations.UnitStateIsPrivate :=
  ⟨fun i _ _ h => (exec_actsOn i h).frame h, fun i _ _ _ hs h => (exec_actsOn i h).noninterference h hs⟩

end Sys2Proof.Machine
end

section
/-! Interleaving of the units' operations (20_memory.md R59). The relation `AgreesOn u` between two states, the same unit
`u` and the same events of `u` in the stream, is a simulation: an operation of another unit is a stutter and an operation
of `u` is done in lockstep. Each operation emits events of its own unit only, and one that finds the synchronizer's
invariant completes and keeps it. -/

namespace Sys2Proof.Machine

/-! ## What an operation emits -/

/-- The output stream grew from `s` to `t` by events of unit `u` only (R84). -/
def EmitsOnly (u : Src) (s t : State) : Prop :=
  ∃ new, t.events = s.events ++ new ∧ ∀ e ∈ new, e.src = u

/-- An operation of unit `u` that got this outcome at `s` completed and emitted events of `u` only. -/
def Answers (u : Src) (s : State) (o : Host.Outcome State Fault Refusal) : Prop :=
  ∃ t, o = .next t ∧ EmitsOnly u s t

@[simp] theorem decodeEvent_src (u : RxSrc) (r : DecodeResult) : (decodeEvent u r).src = u.src := by
  cases r <;> rfl

section Emission

variable {u : Src} {s t : State}

theorem EmitsOnly.of_quiet (h : t.events = s.events) : EmitsOnly u s t := ⟨[], by simp [h], by simp⟩

theorem Answers.of_quiet (h : t.events = s.events) : Answers u s (.next t) := ⟨t, rfl, .of_quiet h⟩

theorem Answers.of_emit {es : List Event} (h : t.events = s.events ++ es) (hsrc : ∀ e ∈ es, e.src = u) :
    Answers u s (.next t) := ⟨t, rfl, es, h, hsrc⟩

theorem Answers.of_raise (e : UsageFault) : Answers e.src s (.next (s.raiseUsageFault e)) :=
  .of_emit (State.raiseUsageFault_events s e) fun _ hx => by rw [List.mem_singleton.mp hx]; rfl

theorem execCkByte_answers (b : Byte) (s : State) : Answers .ck s (execCkByte b s) := by
  unfold execCkByte
  split
  · exact .of_quiet rfl
  · exact .of_quiet rfl

theorem execCkRead_answers (s : State) : Answers .ck s (execCkRead s) := by
  unfold execCkRead
  split
  · exact .of_raise .ckEmpty
  · exact .of_emit rfl (by simp [Event.src])

theorem execEncLen_answers (l : Byte) (s : State) : Answers .enc s (execEncLen l s) := by
  unfold execEncLen
  split
  · exact .of_raise (.sequence _)
  · exact .of_quiet rfl

theorem execEncCmd_answers (c : Byte) (s : State) : Answers .enc s (execEncCmd c s) := by
  unfold execEncCmd
  split
  · exact .of_raise (.sequence _)
  · dsimp only
    split
    · exact .of_emit rfl (by simp [checksumTx, Event.src])
    · exact .of_emit rfl (by simp [Event.src])

theorem execEncData_answers (d : Byte) (s : State) : Answers .enc s (execEncData d s) := by
  unfold execEncData
  split
  · exact .of_raise (.sequence _)
  · dsimp only
    split
    · exact .of_emit rfl (by simp [checksumTx, Event.src])
    · exact .of_emit rfl (by simp [Event.src])

theorem execDecByte_answers (b : Byte) (s : State) : Answers .dec s (execDecByte b s) := by
  unfold execDecByte
  split
  · exact .of_raise (.decOverflow b)
  · exact .of_quiet rfl

theorem execDecEnd_answers (s : State) : Answers .dec s (execDecEnd s) :=
  .of_emit rfl (by simp [RxSrc.src])

/-- SYNC_BYTE is the one operation that can stop (log entry 5); every other one completes in every state. -/
theorem exec_answers_of_ne_syncByte {i : Instr} (h : ∀ b, i ≠ .syncByte b) (s : State) :
    Answers (unitOf i) s (exec i s) := by
  cases i with
  | ckClr => exact .of_quiet rfl
  | ckByte b => exact execCkByte_answers b s
  | ckRead => exact execCkRead_answers s
  | encLen l => exact execEncLen_answers l s
  | encCmd c => exact execEncCmd_answers c s
  | encData d => exact execEncData_answers d s
  | encAbort => exact .of_quiet rfl
  | decByte b => exact execDecByte_answers b s
  | decEnd => exact execDecEnd_answers s
  | decClr => exact .of_quiet rfl
  | syncByte b => exact absurd rfl (h b)
  | syncAbort => exact .of_quiet rfl
  | statRead => exact .of_emit rfl (by simp [Event.src, unitOf])

/-- An append of the synchronizer emits what follows it emits. -/
theorem syncAppend_emitsOnly {b : Byte} {k : Memory → State} (h : syncAppend b s k = .next t)
    (hk : ∀ buf, EmitsOnly u s (k buf)) : EmitsOnly u s t := by
  obtain ⟨-, rfl⟩ := syncAppend_eq_next h
  exact hk _

theorem syncTransition_emitsOnly (st : SyncState) {b : Byte} (h : syncTransition st b s = .next t) :
    EmitsOnly .sync s t := by
  cases st with
  | seeking =>
    simp only [syncTransition, syncSeeking] at h
    split at h
    · exact syncAppend_emitsOnly h fun _ => .of_quiet rfl
    · cases h
      exact .of_quiet rfl
  | length | command | data | crcHigh => exact syncAppend_emitsOnly h fun _ => .of_quiet rfl
  | crcLow => exact syncAppend_emitsOnly h fun _ => ⟨_, rfl, by simp [RxSrc.src]⟩

/-- Every event of an operation carries the tag of the operation's unit (R84). -/
theorem exec_emitsOnly {i : Instr} (h : exec i s = .next t) : EmitsOnly (unitOf i) s t := by
  by_cases hi : ∃ b, i = .syncByte b
  · obtain ⟨b, rfl⟩ := hi
    exact syncTransition_emitsOnly s.sync.state ((execSyncByte_eq_syncTransition b s).symm.trans h)
  · obtain ⟨t', ht', hemits⟩ := exec_answers_of_ne_syncByte (fun b hb => hi ⟨b, hb⟩) s
    cases ht'.symm.trans h
    exact hemits

end Emission

/-! ## Completion: the synchronizer's invariant is all a run needs -/

section Completion

variable {s t : State} {b : Byte}

theorem syncSeeking_keeps_inv (hst : s.sync.state = .seeking) (hinv : s.sync.inv = true)
    (h : syncSeeking b s = .next t) : t.sync.inv = true := by
  obtain ⟨hbuf, hlen, hcnt⟩ := (SyncUnit.inv_seeking hst).mp hinv
  unfold syncSeeking at h
  split at h
  · next hb =>
    obtain ⟨-, rfl⟩ := syncAppend_eq_next h
    exact (SyncUnit.inv_length rfl).mpr ⟨by simp [hbuf, hb], hlen, hcnt⟩
  · cases h
    exact (SyncUnit.inv_seeking (u := { s.sync with buf := [] }) hst).mpr ⟨rfl, hlen, hcnt⟩

theorem syncLength_keeps_inv (hst : s.sync.state = .length) (hinv : s.sync.inv = true)
    (h : syncLength b s = .next t) : t.sync.inv = true := by
  obtain ⟨hbuf, -, hcnt⟩ := (SyncUnit.inv_length hst).mp hinv
  obtain ⟨-, rfl⟩ := syncAppend_eq_next h
  exact (SyncUnit.inv_command rfl).mpr ⟨by simp [hbuf], hcnt⟩

theorem syncCommand_keeps_inv (hst : s.sync.state = .command) (hinv : s.sync.inv = true)
    (h : syncCommand b s = .next t) : t.sync.inv = true := by
  obtain ⟨hbuf, -⟩ := (SyncUnit.inv_command hst).mp hinv
  obtain ⟨-, rfl⟩ := syncAppend_eq_next h
  by_cases hl : s.sync.len = 0#8
  · exact (SyncUnit.inv_crcHigh (by simp [hl])).mpr
      ⟨by simp [hbuf, hl], SyncUnit.headerOk_iff.mpr (by simp [hbuf]), by simp [hl]⟩
  · have hpos : s.sync.len.toNat ≠ 0 := fun h0 => hl (BitVec.eq_of_toNat_eq h0)
    exact (SyncUnit.inv_data (by simp [hl])).mpr
      ⟨by simp [hbuf], SyncUnit.headerOk_iff.mpr (by simp [hbuf]), Nat.pos_of_ne_zero hpos, Nat.pos_of_ne_zero hpos⟩

theorem syncData_keeps_inv (hst : s.sync.state = .data) (hinv : s.sync.inv = true)
    (h : syncData b s = .next t) : t.sync.inv = true := by
  obtain ⟨hbuf, hhdr, hlen, hcnt⟩ := (SyncUnit.inv_data hst).mp hinv
  obtain ⟨-, rfl⟩ := syncAppend_eq_next h
  have hnext : (s.sync.cnt + 1#8).toNat = s.sync.cnt.toNat + 1 := by bv_omega
  by_cases hl : s.sync.cnt + 1#8 = s.sync.len
  · refine (SyncUnit.inv_crcHigh (by simp [hl])).mpr ⟨?_, SyncUnit.headerOk_append hhdr rfl rfl, hl⟩
    simp [hbuf, ← hl, hnext, Nat.add_assoc]
  · refine (SyncUnit.inv_data (by simp [hl])).mpr ⟨?_, SyncUnit.headerOk_append hhdr rfl rfl, hlen, ?_⟩
    · simp [hbuf, hnext, Nat.add_assoc]
    · show (s.sync.cnt + 1#8).toNat < s.sync.len.toNat
      have : (s.sync.cnt + 1#8).toNat ≠ s.sync.len.toNat := fun h0 => hl (BitVec.eq_of_toNat_eq h0)
      omega

theorem syncCrcHigh_keeps_inv (hst : s.sync.state = .crcHigh) (hinv : s.sync.inv = true)
    (h : syncCrcHigh b s = .next t) : t.sync.inv = true := by
  obtain ⟨hbuf, hhdr, hcnt⟩ := (SyncUnit.inv_crcHigh hst).mp hinv
  obtain ⟨-, rfl⟩ := syncAppend_eq_next h
  refine (SyncUnit.inv_crcLow rfl).mpr ⟨?_, SyncUnit.headerOk_append hhdr rfl rfl, hcnt⟩
  simp [hbuf]
  omega

theorem syncCrcLow_keeps_inv (h : syncCrcLow b s = .next t) : t.sync.inv = true := by
  obtain ⟨-, rfl⟩ := syncAppend_eq_next h
  rfl

/-- A byte keeps the synchronizer's invariant (R30). -/
theorem execSyncByte_keeps_inv (hinv : s.sync.inv = true) (h : execSyncByte b s = .next t) : t.sync.inv = true := by
  rw [execSyncByte_eq_syncTransition] at h
  cases hst : s.sync.state with
  | seeking => exact syncSeeking_keeps_inv hst hinv (by rwa [hst] at h)
  | length => exact syncLength_keeps_inv hst hinv (by rwa [hst] at h)
  | command => exact syncCommand_keeps_inv hst hinv (by rwa [hst] at h)
  | data => exact syncData_keeps_inv hst hinv (by rwa [hst] at h)
  | crcHigh => exact syncCrcHigh_keeps_inv hst hinv (by rwa [hst] at h)
  | crcLow => exact syncCrcLow_keeps_inv (by rwa [hst] at h)

theorem syncTransition_completes (st : SyncState) (b : Byte) (hroom : s.sync.buf.length < Config.bufCap) :
    ∃ t, syncTransition st b s = .next t := by
  cases st with
  | seeking =>
    simp only [syncTransition, syncSeeking]
    split
    · exact ⟨_, syncAppend_of_lt hroom b _⟩
    · exact ⟨_, rfl⟩
  | length | command | data | crcHigh | crcLow => exact ⟨_, syncAppend_of_lt hroom b _⟩

/-- Where the synchronizer's invariant holds, every operation completes (R204, R279). -/
theorem exec_completes (i : Instr) (hinv : s.sync.inv = true) : ∃ t, exec i s = .next t := by
  by_cases hi : ∃ b, i = .syncByte b
  · obtain ⟨b, rfl⟩ := hi
    obtain ⟨t, ht⟩ := syncTransition_completes s.sync.state b (SyncUnit.room_of_inv hinv)
    exact ⟨t, (execSyncByte_eq_syncTransition b s).trans ht⟩
  · obtain ⟨t, ht, -⟩ := exec_answers_of_ne_syncByte (fun b hb => hi ⟨b, hb⟩) s
    exact ⟨t, ht⟩

/-- Every operation keeps the synchronizer's invariant: those of the other units by leaving SYNC as it is (R27). -/
theorem exec_keeps_syncInv {i : Instr} (hinv : s.sync.inv = true) (h : exec i s = .next t) : t.sync.inv = true := by
  by_cases hi : unitOf i = .sync
  · cases i with
    | syncByte b => exact execSyncByte_keeps_inv hinv h
    | syncAbort => cases h; rfl
    | _ => cases hi
  · obtain ⟨-, -, -, hsync, -⟩ := (exec_actsOn i h).frame h
    rw [hsync hi, hinv]

theorem execAll_completes (is : List Instr) (hinv : s.sync.inv = true) : ∃ t, execAll is s = .next t := by
  induction is generalizing s with
  | nil => exact ⟨s, rfl⟩
  | cons i is ih =>
    obtain ⟨t, ht⟩ := exec_completes i hinv
    rw [execAll_cons_next ht]
    exact ih (exec_keeps_syncInv hinv ht)

end Completion

/-! ## The events of one unit -/

theorem eventsOf_append (u : Src) (xs ys : List Event) : eventsOf u (xs ++ ys) = eventsOf u xs ++ eventsOf u ys :=
  List.filter_append xs ys

/-- Events of one unit only are no events of another. -/
theorem eventsOf_eq_nil {u v : Src} {es : List Event} (hsrc : ∀ e ∈ es, e.src = v) (hv : v ≠ u) :
    eventsOf u es = [] := by
  simp only [eventsOf, List.filter_eq_nil_iff, decide_eq_true_eq]
  exact fun e he => (hsrc e he).trans_ne hv

/-- A run withdraws no event (R58). -/
theorem execAll_events_prefix {is : List Instr} {s t : State} (h : execAll is s = .next t) :
    s.events <+: t.events := by
  induction is generalizing s with
  | nil => cases h; exact List.prefix_rfl
  | cons i is ih =>
    obtain ⟨s₁, hi, his⟩ := execAll_cons_eq_next.mp h
    obtain ⟨new, hnew, -⟩ := exec_emitsOnly hi
    exact (List.prefix_append s.events new).trans (hnew ▸ ih his)

/-- The events of a unit in a stream that grew: those it had, and its new ones. -/
theorem eventsOf_eq_append_newEvents {s t : State} (u : Src) (h : s.events <+: t.events) :
    eventsOf u t.events = eventsOf u s.events ++ eventsOf u (newEvents s t) := by
  rw [← eventsOf_append, newEvents, List.prefix_iff_eq_append.mp h]

/-! ## The simulation -/

theorem opsOf_cons_of_eq {u : Src} {i : Instr} (h : unitOf i = u) (is : List Instr) :
    opsOf u (i :: is) = i :: opsOf u is :=
  List.filter_cons_of_pos (decide_eq_true h)

theorem opsOf_cons_of_ne {u : Src} {i : Instr} (h : unitOf i ≠ u) (is : List Instr) :
    opsOf u (i :: is) = opsOf u is :=
  List.filter_cons_of_neg (by simpa using h)

/-- The two states cannot be told apart by unit `u`: the same elements of `u` and the same events of `u`. -/
structure AgreesOn (u : Src) (s s' : State) : Prop where
  unit : sameUnit u s s'
  events : eventsOf u s.events = eventsOf u s'.events

section Simulation

variable {u : Src} {i : Instr} {s s' t : State}

theorem AgreesOn.refl (u : Src) (s : State) : AgreesOn u s s := ⟨sameUnit_refl u s, rfl⟩

/-- A stutter: an operation of another unit, on one side only, keeps the agreement. -/
theorem AgreesOn.exec_other (hu : u ≠ .ctrl) (hi : unitOf i ≠ u) (h : exec i s = .next t) (ha : AgreesOn u s s') :
    AgreesOn u t s' := by
  have hunit : sameUnit u t s' := by
    obtain ⟨hck, henc, hdec, hsync, -⟩ := (exec_actsOn i h).frame h
    cases u with
    | ck => exact (hck hi).trans ha.unit
    | enc => exact (henc hi).trans ha.unit
    | dec => exact (hdec hi).trans ha.unit
    | sync => exact (hsync hi).trans ha.unit
    | ctrl => exact absurd rfl hu
  obtain ⟨new, hnew, hsrc⟩ := exec_emitsOnly h
  refine ⟨hunit, ?_⟩
  rw [hnew, eventsOf_append, eventsOf_eq_nil hsrc hi, List.append_nil]
  exact ha.events

/-- Lockstep: an operation of the unit, done on one side, can be done on the other and keeps the agreement (R27). -/
theorem AgreesOn.exec_own (hu : u ≠ .ctrl) (hi : unitOf i = u) (h : exec i s = .next t) (ha : AgreesOn u s s') :
    ∃ t', exec i s' = .next t' ∧ AgreesOn u t t' := by
  subst hi
  obtain ⟨t', new, -, ht', hunit, hev, hev', -, -⟩ := (exec_actsOn i h).noninterference h ha.unit
  refine ⟨t', ht', hunit.resolve_left hu, ?_⟩
  rw [hev, hev', eventsOf_append, eventsOf_append, ha.events]

/-- The unit's operations alone do on their side what the whole run does for the unit. -/
theorem AgreesOn.execAll_opsOf (hu : u ≠ .ctrl) {is : List Instr} (h : execAll is s = .next t)
    (ha : AgreesOn u s s') : ∃ t', execAll (opsOf u is) s' = .next t' ∧ AgreesOn u t t' := by
  induction is generalizing s s' with
  | nil =>
    cases h
    exact ⟨s', rfl, ha⟩
  | cons i is ih =>
    obtain ⟨s₁, hexec, hrest⟩ := execAll_cons_eq_next.mp h
    by_cases hi : unitOf i = u
    · obtain ⟨s₁', hexec', ha₁⟩ := ha.exec_own hu hi hexec
      rw [opsOf_cons_of_eq hi, execAll_cons_next hexec']
      exact ih hrest ha₁
    · rw [opsOf_cons_of_ne hi]
      exact ih hrest (ha.exec_other hu hi hexec)

end Simulation

/-- Settles O52: the whole run and the run of the unit's operations alone keep the agreement of the state they share. -/
theorem interleavingDoesNotMatter : Obligations.InterleavingDoesNotMatter := by
  intro s is u hinv hu
  obtain ⟨-, -, -, hsync⟩ := (State.inv_iff s).mp hinv
  obtain ⟨t, ht⟩ := execAll_completes is hsync
  obtain ⟨t', ht', ha⟩ := (AgreesOn.refl u s).execAll_opsOf hu ht
  refine ⟨t, t', ht, ht', ha.unit, List.append_cancel_left (as := eventsOf u s.events) ?_⟩
  calc eventsOf u s.events ++ eventsOf u (newEvents s t)
      = eventsOf u t.events := (eventsOf_eq_append_newEvents u (execAll_events_prefix ht)).symm
    _ = eventsOf u t'.events := ha.events
    _ = _ := eventsOf_eq_append_newEvents u (execAll_events_prefix ht')

end Sys2Proof.Machine
end

section
/-! The decoder (30_encoding.md R80 to R83): the three ways an opcode can be read, which words are legal, and what a step
does with an illegal one. -/

namespace Sys2Proof

/-- The decoder reads a word by its two fields (R80). -/
@[simp] theorem decode_opWord (op arg : Byte) : decode (opWord op arg) = decodeFields op arg := by
  rw [decode, opField_opWord, argField_opWord]

/-- Each row of the opcode map (R81), read back. -/
theorem decode_encode (i : Instr) : decode (encode i) = .instr i := by
  rw [encode, decode_opWord]
  cases i <;> rfl

/-! ## The three ways an opcode can be read -/

/-- An opcode with an argument takes any argument byte (R82). -/
theorem decodeFields_of_takesArgument {op : Byte} (h : takesArgument op = true) (arg : Byte) :
    ∃ i, decodeFields op arg = .instr i := by
  simp only [takesArgument, List.contains_iff_mem, List.mem_cons, List.not_mem_nil, or_false] at h
  rcases h with rfl | rfl | rfl | rfl | rfl | rfl <;> exact ⟨_, rfl⟩

/-- An opcode without an argument has one operation, subject to the check of the argument byte (R82). -/
theorem decodeFields_of_takesNoArgument {op : Byte} (h : takesNoArgument op = true) (arg : Byte) :
    ∃ i, decodeFields op arg = decodeNoArg i op arg := by
  simp only [takesNoArgument, List.contains_iff_mem, List.mem_cons, List.not_mem_nil, or_false] at h
  rcases h with rfl | rfl | rfl | rfl | rfl | rfl | rfl <;> exact ⟨_, rfl⟩

/-- An opcode of neither kind is not in the map (R81). -/
theorem decodeFields_of_unassigned {op : Byte} (harg : takesArgument op = false) (hno : takesNoArgument op = false)
    (arg : Byte) : decodeFields op arg = .illegal (.unassignedOpcode op) := by
  unfold decodeFields
  split
  case h_14 => rfl
  case h_2 | h_4 | h_5 | h_6 | h_8 | h_11 => exact absurd harg (by decide)
  all_goals exact absurd hno (by decide)

theorem decodeNoArg_zero (i : Instr) (op : Byte) : decodeNoArg i op 0#8 = .instr i := if_pos rfl

theorem decodeNoArg_of_ne {arg : Byte} (h : arg ≠ 0#8) (i : Instr) (op : Byte) :
    decodeNoArg i op arg = .illegal (.nonzeroArgument op arg) := if_neg h

/-! ## The legal words -/

@[simp] theorem legalWord_opWord (op arg : Byte) :
    legalWord (opWord op arg) = (takesArgument op || (takesNoArgument op && arg == 0#8)) := by
  rw [legalWord, opField_opWord, argField_opWord]

theorem legalWord_iff (w : Word) :
    legalWord w = true ↔ takesArgument (opField w) = true ∨ (takesNoArgument (opField w) = true ∧ argField w = 0#8) := by
  simp [legalWord]

@[simp] theorem Decoded.isSome_instr? (d : Decoded) : d.instr?.isSome = true ↔ ∃ i, d = .instr i := by
  cases d <;> simp [Decoded.instr?]

/-- The words that decode to an operation are the legal ones (R82, R83). -/
theorem decode_eq_instr_iff (w : Word) : (∃ i, decode w = .instr i) ↔ legalWord w = true := by
  rw [legalWord_iff, decode]
  by_cases harg : takesArgument (opField w) = true
  · exact iff_of_true (decodeFields_of_takesArgument harg _) (.inl harg)
  by_cases hno : takesNoArgument (opField w) = true
  · obtain ⟨i, hi⟩ := decodeFields_of_takesNoArgument hno (argField w)
    rw [hi]
    by_cases hzero : argField w = 0#8
    · rw [hzero, decodeNoArg_zero]
      exact iff_of_true ⟨i, rfl⟩ (.inr ⟨hno, rfl⟩)
    · rw [decodeNoArg_of_ne hzero]
      simp [harg, hzero]
  · rw [decodeFields_of_unassigned (by simpa using harg) (by simpa using hno)]
    simp [harg, hno]

/-- How many argument bytes make a legal word with an opcode (R82). -/
def legalArguments (op : Byte) : Nat :=
  if takesArgument op then 256 else if takesNoArgument op then 1 else 0

/-- One argument byte is 0x00. -/
theorem countP_byte_eq_zero : ((List.range 256).countP fun arg => BitVec.ofNat 8 arg == 0#8) = 1 := by
  have hzero (arg : Nat) (h : arg ∈ List.range 256) : (BitVec.ofNat 8 arg == 0#8) = true ↔ (arg == 0) = true := by
    rw [beq_iff_eq, beq_iff_eq, ← BitVec.toNat_inj, BitVec.toNat_ofNat, BitVec.toNat_ofNat,
      Nat.mod_eq_of_lt (List.mem_range.mp h)]
  rw [List.countP_congr hzero]
  exact List.count_eq_one_of_mem List.nodup_range (by simp)

/-- `legalArguments` counts the argument bytes with which the opcode's word decodes. -/
theorem countP_decode_isSome (op : Byte) :
    ((List.range 256).countP fun arg => (decode (opWord op (BitVec.ofNat 8 arg))).instr?.isSome) =
      legalArguments op := by
  have hlegal (arg : Nat) : (decode (opWord op (BitVec.ofNat 8 arg))).instr?.isSome =
      (takesArgument op || (takesNoArgument op && BitVec.ofNat 8 arg == 0#8)) := by
    rw [← legalWord_opWord, Bool.eq_iff_iff, Decoded.isSome_instr?, decode_eq_instr_iff]
  simp only [hlegal, legalArguments]
  by_cases harg : takesArgument op = true
  · simp [harg]
  · by_cases hno : takesNoArgument op = true
    · simpa [harg, hno] using countP_byte_eq_zero
    · simp [harg, hno]

end Sys2Proof

namespace Sys2Proof.Machine

/-- The step with an illegal word next is R231's fault. -/
theorem step_of_illegal {s : State} {w : Word} {rest : List Input} {r : Illegal} (hin : s.input = .word w :: rest)
    (hdec : decode w = .illegal r) : step s = .next (illegalWord w (s.withInput rest)) := by
  rw [step, takeInput_eq_some.mpr ⟨rest, hin, rfl⟩]
  simp only [hdec]

/-- Settles O10: legality is `legalWord`, and the count adds up `legalArguments` over the opcodes. -/
theorem legalWordsAreExactly1543 : Obligations.LegalWordsAreExactly1543 := by
  refine ⟨fun w => ?legal, fun s op arg rest hin hop harg => ?fault, ?count⟩
  case legal =>
    rw [decode_eq_instr_iff, legalWord_iff, takesArgument, takesNoArgument, List.contains_iff_mem,
      List.contains_iff_mem]
    rfl
  case fault =>
    obtain ⟨i, hi⟩ := decodeFields_of_takesNoArgument (List.contains_iff_mem.mpr hop) arg
    have hdec : decode (opWord op arg) = .illegal (.nonzeroArgument op arg) := by
      rw [decode_opWord, hi, decodeNoArg_of_ne harg]
    exact step_of_illegal hin hdec
  case count =>
    calc _ = ((List.range 256).map fun op => legalArguments (BitVec.ofNat 8 op)).sum :=
          congrArg List.sum (List.map_congr_left fun op _ => countP_decode_isSome (BitVec.ofNat 8 op))
      _ = 1543 := by decide +kernel

/-- Settles O11: each row is `decode_encode` of its operation, and the opcodes left are of neither kind. -/
theorem opcodeMapDecodes : Obligations.OpcodeMapDecodes := by
  refine ⟨decode_encode .ckClr, fun b => decode_encode (.ckByte b), decode_encode .ckRead,
    fun l => decode_encode (.encLen l), fun c => decode_encode (.encCmd c), fun d => decode_encode (.encData d),
    decode_encode .encAbort, fun b => decode_encode (.decByte b), decode_encode .decEnd, decode_encode .decClr,
    fun b => decode_encode (.syncByte b), decode_encode .syncAbort, decode_encode .statRead,
    fun op arg hop => ⟨.unassignedOpcode op, ?_⟩⟩
  have harg : takesArgument op = false := by simp_all [takesArgument]
  have hno : takesNoArgument op = false := by simp_all [takesNoArgument]
  exact (decode_opWord op arg).trans (decodeFields_of_unassigned harg hno arg)

end Sys2Proof.Machine
end

section
/-! The layout of an encoded frame (30_encoding.md R70 to R75): the bytes the checksum covers, and the checksum after
them. -/

namespace Sys2Proof.Machine

/-- The bytes of a frame that its checksum covers: magic, length, command and payload (R75). -/
def frameBody (cmd : Byte) (p : List Byte) : List Byte := [Config.magic, byteOfNat p.length, cmd] ++ p

/-- The checksum of a frame (R75, R101). -/
def frameSum (cmd : Byte) (p : List Byte) : Word := checksum Config.magic ([byteOfNat p.length, cmd] ++ p)

theorem frameEncode_eq (cmd : Byte) (p : List Byte) :
    frameEncode cmd p = frameBody cmd p ++ [hiByte (frameSum cmd p), loByte (frameSum cmd p)] := rfl

theorem length_frameBody (cmd : Byte) (p : List Byte) : (frameBody cmd p).length = 3 + p.length := by
  rw [frameBody, List.length_append]
  rfl

theorem take_frameEncode (cmd : Byte) (p : List Byte) : (frameEncode cmd p).take (3 + p.length) = frameBody cmd p := by
  rw [frameEncode_eq, ← length_frameBody cmd p, List.take_left]

theorem frameEncode_getElem?_payload {p : List Byte} {i : Nat} (h : i < p.length) (cmd : Byte) :
    (frameEncode cmd p)[3 + i]? = p[i]? := by
  rw [frameEncode_eq, List.getElem?_append_left (by rw [length_frameBody]; omega), frameBody,
    List.getElem?_append_right (Nat.le_add_right 3 i)]
  simp

theorem frameEncode_getElem?_hi (cmd : Byte) (p : List Byte) :
    (frameEncode cmd p)[3 + p.length]? = some (hiByte (frameSum cmd p)) := by
  simp [frameEncode_eq, ← length_frameBody cmd p]

theorem frameEncode_getElem?_lo (cmd : Byte) (p : List Byte) :
    (frameEncode cmd p)[4 + p.length]? = some (loByte (frameSum cmd p)) := by
  rw [show 4 + p.length = (frameBody cmd p).length + 1 by rw [length_frameBody]; omega, frameEncode_eq,
    List.getElem?_append_right (Nat.le_add_right _ 1)]
  simp

/-- Settles O18, field by field. -/
theorem encodedFrameHasWireLayout : Obligations.EncodedFrameHasWireLayout := by
  intro cmd p hp
  exact ⟨length_frameEncode cmd p, rfl, ⟨byteOfNat p.length, rfl, toNat_byteOfNat hp⟩, rfl,
    fun i hi => frameEncode_getElem?_payload hi cmd,
    ⟨hiByte (frameSum cmd p), loByte (frameSum cmd p), frameEncode_getElem?_hi cmd p, frameEncode_getElem?_lo cmd p,
      bigEndian_hiByte_loByte (frameSum cmd p)⟩,
    take_frameEncode cmd p⟩

end Sys2Proof.Machine
end

section
/-! The laws of the checksum step (40_checksum.md R100, R104). Its three adjustments have one shape, `adjust f`: the
exclusive or of a word with its image under a linear map `f`, which moves every bit past an end of the word when it is
repeated. So each adjustment is linear and injective, and with them the step. -/

namespace Sys2Proof.Machine

/-! ## Linear adjustments of a word -/

/-- A map of words that goes through exclusive or: it has no carry (R104). -/
def XorLinear (f : Word → Word) : Prop := ∀ x y, f (x ^^^ y) = f x ^^^ f y

/-- One adjustment of the accumulator, `t ^= f t` (R100). -/
def adjust (f : Word → Word) (t : Word) : Word := t ^^^ f t

section Adjustments

variable {f : Word → Word}

theorem adjust_xorLinear (hf : XorLinear f) : XorLinear (adjust f) := by
  intro x y
  rw [adjust, hf, adjust, adjust]
  ac_rfl

/-- Two words with the same adjustment differ by a fixed point of `f`, and a nilpotent map has none but 0. -/
theorem adjust_injective (hf : XorLinear f) (hnil : ∀ t, f (f (f t)) = 0#16) :
    Function.Injective (adjust f) := by
  intro x y h
  have hzero : adjust f (x ^^^ y) = 0#16 := by rw [adjust_xorLinear hf, h, BitVec.xor_self]
  have hfix : x ^^^ y = f (x ^^^ y) := BitVec.xor_eq_zero_iff.mp hzero
  have hdiff : x ^^^ y = 0#16 := by rw [← hnil (x ^^^ y), ← hfix, ← hfix, ← hfix]
  exact BitVec.xor_eq_zero_iff.mp hdiff

theorem adjust_of_eq_zero {t : Word} (h : f t = 0#16) : adjust f t = t := by
  rw [adjust, h, BitVec.xor_zero]

end Adjustments

/-! ## The byte swap and the widened byte -/

theorem loByte_eq_setWidth (x : Word) : loByte x = x.setWidth 8 := (BitVec.setWidth_eq_extractLsb' (by decide)).symm

/-- A widened byte is the low byte of a word whose high byte is 0. -/
theorem zext16_eq_bigEndian (b : Byte) : zext16 b = bigEndian 0#8 b := BitVec.setWidth_eq_append (by decide)

@[simp] theorem loByte_zext16 (b : Byte) : loByte (zext16 b) = b := by
  rw [zext16_eq_bigEndian, loByte_bigEndian]

/-- A word with low byte 0 is its high byte, moved up. -/
theorem bigEndian_zero_eq_shiftLeft (a : Byte) : bigEndian a 0#8 = zext16 a <<< 8 := by
  have h := BitVec.setWidth_append_eq_shiftLeft_setWidth_or (b := a) (b' := 0#8) (w'' := 16)
  rw [BitVec.setWidth_zero, BitVec.or_zero] at h
  exact (BitVec.setWidth_eq _).symm.trans h

theorem zext16_injective : Function.Injective zext16 := Function.LeftInverse.injective loByte_zext16

/-- The low byte, widened, is the source's mask `x & 0xFF` (R100). -/
theorem zext16_loByte (x : Word) : zext16 (loByte x) = x &&& 0x00FF#16 := by
  rw [zext16_eq_bigEndian, loByte_eq_setWidth]
  exact (BitVec.and_setWidth_allOnes 8 8 x).symm

theorem loByte_xor (x y : Word) : loByte (x ^^^ y) = loByte x ^^^ loByte y := BitVec.extractLsb'_xor

theorem zext16_xor (a b : Byte) : zext16 (a ^^^ b) = zext16 a ^^^ zext16 b := BitVec.setWidth_xor

theorem zext16_ushiftRight (b : Byte) (n : Nat) : zext16 (b >>> n) = zext16 b >>> n :=
  BitVec.setWidth_ushiftRight (by decide)

theorem zext16_zero : zext16 0#8 = 0#16 := rfl

/-- The swap exchanges the two bytes (00_scope.md section 5). -/
theorem rotl8_bigEndian (hi lo : Byte) : rotl8 (bigEndian hi lo) = bigEndian lo hi :=
  congrArg₂ bigEndian (loByte_bigEndian hi lo) (hiByte_bigEndian hi lo)

theorem rotl8_involutive : Function.Involutive rotl8 := fun x => by
  rw [← bigEndian_hiByte_loByte x, rotl8_bigEndian, rotl8_bigEndian]

theorem rotl8_xorLinear : XorLinear rotl8 := fun _ _ =>
  (congrArg₂ bigEndian BitVec.extractLsb'_xor BitVec.extractLsb'_xor).trans BitVec.xor_append.symm

theorem rotl8_eq_rotateLeft (x : Word) : rotl8 x = x.rotateLeft 8 := by
  apply BitVec.eq_of_getLsbD_eq
  intro i hi
  simp only [rotl8, BitVec.getLsbD_append, BitVec.getLsbD_extractLsb', BitVec.getLsbD_rotateLeft]
  split
  · next h => simp [h]
  · next h => simp [h, hi, show i - 8 < 8 by omega]

/-! ## The three adjustments of the step -/

/-- `(t & 0xFF) >> 4` of R100. -/
def lowByteDown (t : Word) : Word := zext16 (loByte t) >>> 4

/-- `(t << 8) << 4` of R100. -/
def wordUp (t : Word) : Word := t <<< 12

/-- `((t & 0xFF) << 4) << 1` of R100. -/
def lowByteUp (t : Word) : Word := zext16 (loByte t) <<< 5

theorem lowByteDown_xorLinear : XorLinear lowByteDown := fun x y => by
  rw [lowByteDown, loByte_xor, zext16_xor, BitVec.ushiftRight_xor_distrib, lowByteDown, lowByteDown]

theorem wordUp_xorLinear : XorLinear wordUp := fun x y => BitVec.shiftLeft_xor_distrib x y 12

theorem lowByteUp_xorLinear : XorLinear lowByteUp := fun x y => by
  rw [lowByteUp, loByte_xor, zext16_xor, BitVec.shiftLeft_xor_distrib, lowByteUp, lowByteUp]

theorem loByte_lowByteDown (t : Word) : loByte (lowByteDown t) = loByte t >>> 4 := by
  rw [lowByteDown, ← zext16_ushiftRight, loByte_zext16]

theorem loByte_lowByteUp (t : Word) : loByte (lowByteUp t) = loByte t <<< 5 := by
  rw [lowByteUp, loByte_eq_setWidth, BitVec.setWidth_shiftLeft_of_le (by decide), ← loByte_eq_setWidth, loByte_zext16]

/-- A low byte of 0 gives the adjustments of the low byte nothing to move. -/
theorem lowByteDown_of_loByte_eq_zero {t : Word} (h : loByte t = 0#8) : lowByteDown t = 0#16 := by
  rw [lowByteDown, h]
  rfl

theorem lowByteUp_of_loByte_eq_zero {t : Word} (h : loByte t = 0#8) : lowByteUp t = 0#16 := by
  rw [lowByteUp, h]
  rfl

theorem lowByteDown_nilpotent (t : Word) : lowByteDown (lowByteDown (lowByteDown t)) = 0#16 := by
  apply lowByteDown_of_loByte_eq_zero
  rw [loByte_lowByteDown, loByte_lowByteDown, ← BitVec.shiftRight_add, BitVec.ushiftRight_eq_zero (by decide)]

theorem wordUp_nilpotent (t : Word) : wordUp (wordUp (wordUp t)) = 0#16 := by
  rw [wordUp, wordUp, wordUp, ← BitVec.shiftLeft_add, ← BitVec.shiftLeft_add, BitVec.shiftLeft_eq_zero (by decide)]

theorem lowByteUp_nilpotent (t : Word) : lowByteUp (lowByteUp (lowByteUp t)) = 0#16 := by
  apply lowByteUp_of_loByte_eq_zero
  rw [loByte_lowByteUp, loByte_lowByteUp, ← BitVec.shiftLeft_add, BitVec.shiftLeft_eq_zero (by decide)]

/-- The three adjustments in their order (R100). -/
def ckMix (t : Word) : Word := adjust lowByteUp (adjust wordUp (adjust lowByteDown t))

theorem ckMix_xorLinear : XorLinear ckMix := fun x y => by
  rw [ckMix, adjust_xorLinear lowByteDown_xorLinear, adjust_xorLinear wordUp_xorLinear,
    adjust_xorLinear lowByteUp_xorLinear, ckMix, ckMix]

theorem ckMix_injective : Function.Injective ckMix :=
  (adjust_injective lowByteUp_xorLinear lowByteUp_nilpotent).comp <|
    (adjust_injective wordUp_xorLinear wordUp_nilpotent).comp <|
      adjust_injective lowByteDown_xorLinear lowByteDown_nilpotent

/-- A word with low byte 0 is not adjusted. -/
theorem ckMix_bigEndian_zero (a : Byte) : ckMix (bigEndian a 0#8) = bigEndian a 0#8 := by
  have hlow : loByte (bigEndian a 0#8) = 0#8 := loByte_bigEndian a 0#8
  have hword : wordUp (bigEndian a 0#8) = 0#16 := by
    rw [bigEndian_zero_eq_shiftLeft, wordUp, ← BitVec.shiftLeft_add, BitVec.shiftLeft_eq_zero (by decide)]
  rw [ckMix, adjust_of_eq_zero (lowByteDown_of_loByte_eq_zero hlow), adjust_of_eq_zero hword,
    adjust_of_eq_zero (lowByteUp_of_loByte_eq_zero hlow)]

/-! ## The step -/

/-- The step mixes the swapped accumulator and the byte (R100). -/
theorem ckStep_eq_ckMix (acc : Word) (b : Byte) : ckStep acc b = ckMix (rotl8 acc ^^^ zext16 b) := rfl

theorem ckStep_xor (a a' : Word) (b b' : Byte) : ckStep (a ^^^ a') (b ^^^ b') = ckStep a b ^^^ ckStep a' b' := by
  simp only [ckStep_eq_ckMix, ← ckMix_xorLinear _ _, rotl8_xorLinear _ _, zext16_xor]
  congr 1
  ac_rfl

theorem ckStep_injective_acc (b : Byte) : Function.Injective (fun acc => ckStep acc b) := fun _ _ h =>
  rotl8_involutive.injective ((BitVec.xor_left_inj (zext16 b)).mp (ckMix_injective h))

theorem ckStep_injective_byte (acc : Word) : Function.Injective (ckStep acc) := fun _ _ h =>
  zext16_injective ((BitVec.xor_right_inj (rotl8 acc)).mp (ckMix_injective h))

/-- On a finite set of words, injective is bijective. -/
theorem ckStep_bijective_acc (b : Byte) : Function.Bijective (fun acc => ckStep acc b) :=
  Finite.injective_iff_bijective.mp (ckStep_injective_acc b)

theorem ckStep_zext16_zero (a : Byte) : ckStep (zext16 a) 0#8 = bigEndian a 0#8 := by
  rw [ckStep_eq_ckMix, zext16_zero, BitVec.xor_zero, zext16_eq_bigEndian, rotl8_bigEndian, ckMix_bigEndian_zero]

/-! ## The checksum of a sequence -/

/-- Two accumulators that differ still differ after the same bytes. -/
theorem foldl_ckStep_injective (bs : List Byte) : Function.Injective (fun acc => bs.foldl ckStep acc) := by
  induction bs with
  | nil => exact Function.injective_id
  | cons b bs ih => exact ih.comp (ckStep_injective_acc b)

theorem checksum_append_cons (s0 x : Byte) (pre post : List Byte) :
    checksum s0 (pre ++ x :: post) = post.foldl ckStep (ckStep (checksum s0 pre) x) := checksum_append s0 pre (x :: post)

/-- A change to one byte after the first changes the checksum (R104, 42_frame_decoder.md R167). -/
theorem checksum_ne_of_byte_ne {x y : Byte} (h : x ≠ y) (s0 : Byte) (pre post : List Byte) :
    checksum s0 (pre ++ x :: post) ≠ checksum s0 (pre ++ y :: post) := by
  rw [checksum_append_cons, checksum_append_cons]
  exact (foldl_ckStep_injective post).ne ((ckStep_injective_byte _).ne h)

theorem checksum_replicate_zero (k : Nat) : checksum 0#8 (List.replicate k 0#8) = 0#16 := by
  induction k with
  | zero => rfl
  | succ k ih =>
    show (List.replicate k 0#8).foldl ckStep (ckStep (zext16 0#8) 0#8) = 0#16
    rw [ckStep_zext16_zero]
    exact ih

/-- Settles O16: the model's byte helpers are the source's rotate and mask, and its shifts the source's in one. -/
theorem ckStepIsSourceForm : Obligations.CkStepIsSourceForm := by
  intro acc b
  simp only [ckStep, rotl8_eq_rotateLeft, zext16_loByte, ← BitVec.shiftLeft_add]
  rfl

/-- Settles O17, law by law. -/
theorem checksumArithmeticLaws : Obligations.ChecksumArithmeticLaws :=
  ⟨ckStep_xor, fun _ => rfl, ckStep_zext16_zero, checksum_replicate_zero, ckStep_bijective_acc, ckStep_injective_byte,
    fun s0 _ _ pre post h => checksum_ne_of_byte_ne h s0 pre post, by decide, rfl⟩

end Sys2Proof.Machine
end

section
/-! The operations of the checksum unit (40_checksum.md R110 to R113), and a run of them. -/

namespace Sys2Proof

/-- A word as the opcode table writes it: the opcode in the high byte, or the argument (30_encoding.md R80, R81). -/
theorem opWord_eq_or (op arg : Byte) : opWord op arg = opWord op 0#8 ||| arg.zeroExtend 16 := by
  have hzext : arg.zeroExtend 16 = opWord 0#8 arg := BitVec.setWidth_eq_append (by decide)
  have hor : opWord op 0#8 ||| opWord 0#8 arg = opWord (op ||| 0#8) (0#8 ||| arg) := BitVec.or_append
  rw [hzext, hor, BitVec.or_zero, BitVec.zero_or]

end Sys2Proof

namespace Sys2Proof.Machine

section Operations

variable {s : State}

/-! ## One operation -/

theorem exec_ckClr (s : State) : exec .ckClr s = .next (s.withCk .cleared) := rfl

/-- The first byte after a clear is loaded (R111). -/
theorem exec_ckByte_of_empty (h : s.ck.empty = true) (b : Byte) :
    exec (.ckByte b) s = .next (s.withCk { acc := zext16 b, empty := false }) := if_pos h

/-- A later byte is stepped (R111). -/
theorem exec_ckByte_of_nonempty (h : s.ck.empty = false) (b : Byte) :
    exec (.ckByte b) s = .next (s.withCk { acc := ckStep s.ck.acc b, empty := false }) := by
  rw [← h]
  exact if_neg (by rw [h]; decide)

theorem exec_ckRead_of_empty (h : s.ck.empty = true) : exec .ckRead s = .next (s.raiseUsageFault .ckEmpty) := if_pos h

theorem exec_ckRead_of_nonempty (h : s.ck.empty = false) : exec .ckRead s = .next (s.emit [.ckv s.ck.acc]) :=
  if_neg (by rw [h]; decide)

/-! ## A run of operations -/

/-- Bytes after the first fold the step over the accumulator (R101, R111). -/
theorem execAll_ckBytes (h : s.ck.empty = false) (bs : List Byte) :
    execAll (bs.map .ckByte) s = .next (s.withCk { acc := bs.foldl ckStep s.ck.acc, empty := false }) := by
  induction bs generalizing s with
  | nil => rw [← h]; rfl
  | cons b bs ih =>
    rw [List.map_cons, execAll_cons_next (exec_ckByte_of_nonempty h b), ih rfl]
    rfl

/-- A clear and the bytes of a sequence leave its checksum in the accumulator (R113). -/
theorem execAll_ckClr_ckBytes (s : State) (b : Byte) (bs : List Byte) :
    execAll (.ckClr :: .ckByte b :: bs.map .ckByte) s = .next (s.withCk { acc := checksum b bs, empty := false }) := by
  rw [execAll_cons_next (exec_ckClr s), execAll_cons_next (exec_ckByte_of_empty rfl b), execAll_ckBytes rfl]
  rfl

end Operations

/-! ## The obligations -/

/-- Settles O19. -/
theorem ckClrClearsUnit : Obligations.CkClrClearsUnit := ⟨rfl, exec_ckClr⟩

/-- Settles O20, by whether a byte was accumulated. -/
theorem ckByteAccumulates : Obligations.CkByteAccumulates := by
  refine ⟨fun b => opWord_eq_or 0x02#8 b, fun s b => ?_⟩
  cases h : s.ck.empty with
  | true => exact exec_ckByte_of_empty h b
  | false => exact exec_ckByte_of_nonempty h b

/-- Settles O21. -/
theorem ckReadReportsOrFaults : Obligations.CkReadReportsOrFaults :=
  ⟨rfl, fun _ h => exec_ckRead_of_nonempty h, fun _ h => exec_ckRead_of_empty h⟩

/-- Settles O22: the read comes after the run that accumulates the sequence, or right after the clear. -/
theorem ckRunEmitsChecksum : Obligations.CkRunEmitsChecksum := by
  refine ⟨fun s b bs => ?_, fun s => ?_⟩
  · refine execAll_append_eq_next.mpr ⟨_, execAll_ckClr_ckBytes s b bs, ?_⟩
    rw [execAll_cons_next (exec_ckRead_of_nonempty rfl)]
    rfl
  · rw [execAll_cons_next (exec_ckClr s), execAll_cons_next (exec_ckRead_of_empty rfl)]
    rfl

end Sys2Proof.Machine
end

section
/-! The operations of the frame encoder (41_frame_encoder.md R133 to R136), each once and case by case. -/

namespace Sys2Proof.Machine

section Operations

variable {s : State}

/-! ## In order -/

/-- ENC_LEN in IDLE announces the length (R133). -/
theorem exec_encLen_of_idle (h : s.enc.state = .idle) (l : Byte) :
    exec (.encLen l) s = .next (s.withEnc { s.enc with state := .haveLen, len := l }) := if_neg (not_not_intro h)

/-- ENC_CMD after ENC_LEN 0 emits the whole frame (R134). -/
theorem exec_encCmd_of_len_eq_zero (h : s.enc.state = .haveLen) (hl : s.enc.len = 0#8) (c : Byte) :
    exec (.encCmd c) s = .next ((s.withEnc .idle).emit
      ([.tx Config.magic, .tx 0#8, .tx c] ++ checksumTx (ckStep (ckStep (zext16 Config.magic) 0#8) c))) := by
  rw [← hl]
  exact (if_neg (not_not_intro h)).trans (if_pos hl)

/-- ENC_CMD after another ENC_LEN emits the header and enters PAYLOAD (R134). -/
theorem exec_encCmd_of_len_ne_zero (h : s.enc.state = .haveLen) (hl : s.enc.len ≠ 0#8) (c : Byte) :
    exec (.encCmd c) s = .next ((s.withEnc
      { state := .payload, len := s.enc.len, rem := s.enc.len,
        acc := ckStep (ckStep (zext16 Config.magic) s.enc.len) c }).emit
      [.tx Config.magic, .tx s.enc.len, .tx c]) :=
  (if_neg (not_not_intro h)).trans (if_neg hl)

/-- ENC_DATA of the last payload byte emits it and the checksum (R135). -/
theorem exec_encData_of_rem_eq_one (h : s.enc.state = .payload) (hr : s.enc.rem.toNat = 1) (d : Byte) :
    exec (.encData d) s = .next ((s.withEnc .idle).emit (.tx d :: checksumTx (ckStep s.enc.acc d))) :=
  (if_neg (not_not_intro h)).trans (if_pos (by bv_omega))

/-- ENC_DATA of any other payload byte emits it and counts it (R135). -/
theorem exec_encData_of_rem_ne_one (h : s.enc.state = .payload) (hr : s.enc.rem.toNat ≠ 1) (d : Byte) :
    exec (.encData d) s = .next ((s.withEnc
      { s.enc with rem := s.enc.rem - 1#8, acc := ckStep s.enc.acc d }).emit [.tx d]) :=
  (if_neg (not_not_intro h)).trans (if_neg (by bv_omega))

theorem exec_encAbort (s : State) : exec .encAbort s = .next (s.withEnc .idle) := rfl

/-! ## Out of order -/

theorem exec_encLen_of_not_idle (h : s.enc.state ≠ .idle) (l : Byte) :
    exec (.encLen l) s = .next (outOfOrder (.encLen l) s) := if_pos h

theorem exec_encCmd_of_not_haveLen (h : s.enc.state ≠ .haveLen) (c : Byte) :
    exec (.encCmd c) s = .next (outOfOrder (.encCmd c) s) := if_pos h

theorem exec_encData_of_not_payload (h : s.enc.state ≠ .payload) (d : Byte) :
    exec (.encData d) s = .next (outOfOrder (.encData d) s) := if_pos h

/-- SEQUENCE field by field, with the operation's word as info (R85, R243). -/
theorem outOfOrder_eq {i : Instr} {w : Word} (h : encode i = w) (s : State) :
    outOfOrder i s = { s with fault := s.fault ||| 0b0100#4, events := s.events ++ [.err .enc 0x12#8 (.word w)] } := by
  subst h
  rfl

end Operations

/-! ## The obligations of single operations -/

theorem encode_encLen (l : Byte) : encode (.encLen l) = 0x1000#16 ||| l.zeroExtend 16 := opWord_eq_or 0x10#8 l
theorem encode_encCmd (c : Byte) : encode (.encCmd c) = 0x1100#16 ||| c.zeroExtend 16 := opWord_eq_or 0x11#8 c
theorem encode_encData (d : Byte) : encode (.encData d) = 0x1200#16 ||| d.zeroExtend 16 := opWord_eq_or 0x12#8 d

/-- Settles O23. -/
theorem encLenAnnouncesLength : Obligations.EncLenAnnouncesLength := by
  refine ⟨encode_encLen, fun s l h => exec_encLen_of_idle h l, fun s l h => ?_⟩
  rw [exec_encLen_of_not_idle h, outOfOrder_eq (encode_encLen l)]

/-- Settles O24: the checksum's two bytes are those of the model's own accumulator. -/
theorem encCmdEmitsHeader : Obligations.EncCmdEmitsHeader := by
  refine ⟨encode_encCmd, fun s c h hl => ?_, fun s c h hl => exec_encCmd_of_len_ne_zero h hl c, fun s c h => ?_⟩
  · exact ⟨_, _, bigEndian_hiByte_loByte _, exec_encCmd_of_len_eq_zero h hl c⟩
  · rw [exec_encCmd_of_not_haveLen h, outOfOrder_eq (encode_encCmd c)]

/-- Settles O25, by how many payload bytes are still to come. -/
theorem encDataEmitsPayloadByte : Obligations.EncDataEmitsPayloadByte := by
  refine ⟨encode_encData, fun s d h hr => exec_encData_of_rem_ne_one h hr.ne' d, fun s d h hr => ?_, fun s d h => ?_⟩
  · exact ⟨_, _, bigEndian_hiByte_loByte _, exec_encData_of_rem_eq_one h hr d⟩
  · rw [exec_encData_of_not_payload h, outOfOrder_eq (encode_encData d)]

/-- Settles O26. -/
theorem encAbortReturnsToIdle : Obligations.EncAbortReturnsToIdle := ⟨rfl, exec_encAbort⟩

end Sys2Proof.Machine
end

section
/-! The sticky fault bits over a run (10_state.md R24, 60_exceptions.md R243): an operation leaves them as they are or
raises one usage fault, so a run without an ERR event of ENC leaves ENC's bit as it is. -/

namespace Sys2Proof.Machine

variable {s t : State}

/-! ## One operation -/

theorem syncTransition_keeps_fault (st : SyncState) {b : Byte} (h : syncTransition st b s = .next t) :
    t.fault = s.fault := by
  cases st with
  | seeking =>
    simp only [syncTransition, syncSeeking] at h
    split at h
    · obtain ⟨-, rfl⟩ := syncAppend_eq_next h
      rfl
    · cases h
      rfl
  | length | command | data | crcHigh | crcLow =>
    obtain ⟨-, rfl⟩ := syncAppend_eq_next h
    rfl

/-- What an operation can do to the fault bits (R243). -/
theorem exec_fault_cases {i : Instr} (h : exec i s = .next t) :
    t.fault = s.fault ∨ ∃ e, t = s.raiseUsageFault e := by
  cases i with
  | ckByte b =>
    cases he : s.ck.empty with
    | true => cases (exec_ckByte_of_empty he b).symm.trans h; exact .inl rfl
    | false => cases (exec_ckByte_of_nonempty he b).symm.trans h; exact .inl rfl
  | ckRead =>
    cases he : s.ck.empty with
    | true => cases (exec_ckRead_of_empty he).symm.trans h; exact .inr ⟨_, rfl⟩
    | false => cases (exec_ckRead_of_nonempty he).symm.trans h; exact .inl rfl
  | encLen l =>
    by_cases hst : s.enc.state = .idle
    · cases (exec_encLen_of_idle hst l).symm.trans h; exact .inl rfl
    · cases (exec_encLen_of_not_idle hst l).symm.trans h; exact .inr ⟨_, rfl⟩
  | encCmd c =>
    by_cases hst : s.enc.state = .haveLen
    · by_cases hl : s.enc.len = 0#8
      · cases (exec_encCmd_of_len_eq_zero hst hl c).symm.trans h; exact .inl rfl
      · cases (exec_encCmd_of_len_ne_zero hst hl c).symm.trans h; exact .inl rfl
    · cases (exec_encCmd_of_not_haveLen hst c).symm.trans h; exact .inr ⟨_, rfl⟩
  | encData d =>
    by_cases hst : s.enc.state = .payload
    · by_cases hr : s.enc.rem.toNat = 1
      · cases (exec_encData_of_rem_eq_one hst hr d).symm.trans h; exact .inl rfl
      · cases (exec_encData_of_rem_ne_one hst hr d).symm.trans h; exact .inl rfl
    · cases (exec_encData_of_not_payload hst d).symm.trans h; exact .inr ⟨_, rfl⟩
  | decByte b =>
    change execDecByte b s = .next t at h
    unfold execDecByte at h
    split at h
    · cases h; exact .inr ⟨_, rfl⟩
    · cases h; exact .inl rfl
  | syncByte b =>
    exact .inl (syncTransition_keeps_fault s.sync.state ((execSyncByte_eq_syncTransition b s).symm.trans h))
  | ckClr | encAbort | decEnd | decClr | syncAbort | statRead => cases h; exact .inl rfl

theorem newEvents_of_events_eq {es : List Event} (h : t.events = s.events ++ es) : newEvents s t = es := by
  rw [newEvents, h, List.drop_left]

/-- No usage fault but ENC's sets bit 2 (R24). -/
theorem or_mask_and_sequenceBit {e : UsageFault} (h : e.src ≠ .enc) (f : BitVec 4) :
    (f ||| e.mask) &&& 0b0100#4 = f &&& 0b0100#4 := by
  have hmask : e.mask &&& 0b0100#4 = 0#4 := by
    cases e with
    | sequence w => exact absurd rfl h
    | ckEmpty | illegalOp w | decOverflow b => simp [UsageFault.mask]
  rw [BitVec.and_or_distrib_right, hmask, BitVec.or_zero]

theorem exec_keeps_sequenceBit {i : Instr} (h : exec i s = .next t)
    (hquiet : ∀ e ∈ newEvents s t, e.src = .enc → e.isErr = false) :
    t.fault &&& 0b0100#4 = s.fault &&& 0b0100#4 := by
  obtain hkeep | ⟨e, rfl⟩ := exec_fault_cases h
  · rw [hkeep]
  · rw [newEvents_of_events_eq (State.raiseUsageFault_events s e)] at hquiet
    have hsrc : e.src ≠ .enc := fun henc => Bool.noConfusion (hquiet e.event (List.mem_singleton_self _) henc)
    exact or_mask_and_sequenceBit hsrc s.fault

/-! ## A run -/

/-- The new events of two stretches of a run are those of the first and then those of the second (R58). -/
theorem newEvents_append {u : State} (hst : s.events <+: t.events) (htu : t.events <+: u.events) :
    newEvents s t ++ newEvents t u = newEvents s u := by
  obtain ⟨xs, hxs⟩ := hst
  obtain ⟨ys, hys⟩ := htu
  rw [newEvents_of_events_eq hxs.symm, newEvents_of_events_eq hys.symm,
    newEvents_of_events_eq (by rw [← hys, ← hxs, List.append_assoc])]

/-- A run in which ENC reports no error leaves ENC's fault bit as it was. -/
theorem execAll_keeps_sequenceBit {is : List Instr} (h : execAll is s = .next t)
    (hquiet : ∀ e ∈ newEvents s t, e.src = .enc → e.isErr = false) :
    t.fault &&& 0b0100#4 = s.fault &&& 0b0100#4 := by
  induction is generalizing s with
  | nil => cases h; rfl
  | cons i is ih =>
    obtain ⟨s₁, hi, his⟩ := execAll_cons_eq_next.mp h
    obtain ⟨new, hnew, -⟩ := exec_emitsOnly hi
    rw [← newEvents_append ⟨new, hnew.symm⟩ (execAll_events_prefix his)] at hquiet
    calc t.fault &&& 0b0100#4
        = s₁.fault &&& 0b0100#4 := ih his fun e he => hquiet e (List.mem_append_right _ he)
      _ = s.fault &&& 0b0100#4 := exec_keeps_sequenceBit hi fun e he => hquiet e (List.mem_append_left _ he)

end Sys2Proof.Machine
end

section
/-! A frame through the encoder (41_frame_encoder.md R137): first the run of its operations alone, then, since other
units' operations do not matter to ENC (20_memory.md R59), any run that holds them in order. -/

namespace Sys2Proof.Machine

/-! ## The encoder's operations alone -/

/-- The payload bytes of a frame in PAYLOAD, one ENC_DATA each: the bytes, then the checksum (R135). -/
theorem execAll_encData {s : State} (d : Byte) (p : List Byte) (hst : s.enc.state = .payload)
    (hrem : s.enc.rem.toNat = p.length + 1) :
    execAll ((d :: p).map .encData) s =
      .next ((s.withEnc .idle).emit ((d :: p).map .tx ++ checksumTx ((d :: p).foldl ckStep s.enc.acc))) := by
  induction p generalizing s d with
  | nil => rw [List.map_singleton, execAll_cons_next (exec_encData_of_rem_eq_one hst hrem d)]; rfl
  | cons d' p ih =>
    rw [List.length_cons] at hrem
    rw [List.map_cons, execAll_cons_next (exec_encData_of_rem_ne_one hst (by omega) d)]
    have hleft : (s.enc.rem - 1#8).toNat = p.length + 1 := by bv_omega
    refine (ih d' ?_ ?_).trans (congrArg Host.Outcome.next (State.emit_emit (s.withEnc .idle) [.tx d] _))
    · exact hst
    · exact hleft

/-- SEND's operations from IDLE emit the encoded frame (R137, R86). -/
theorem execAll_sendOps {s : State} (c : Byte) {p : List Byte} (hst : s.enc.state = .idle) (hp : p.length ≤ 255) :
    execAll (sendOps c p) s = .next ((s.withEnc .idle).emit ((frameEncode c p).map .tx)) := by
  rw [sendOps, execAll_cons_next (exec_encLen_of_idle hst _)]
  cases p with
  | nil =>
    rw [execAll_cons_next (exec_encCmd_of_len_eq_zero rfl rfl c)]
    rfl
  | cons d p =>
    have hlen : (byteOfNat (d :: p).length).toNat = p.length + 1 := toNat_byteOfNat hp
    have hne : byteOfNat (d :: p).length ≠ 0#8 := by bv_omega
    rw [execAll_cons_next (exec_encCmd_of_len_ne_zero rfl hne c), execAll_encData d p rfl hlen, frameEncode_eq,
      List.map_append]
    exact congrArg Host.Outcome.next (State.emit_emit (s.withEnc .idle) _ _)

/-! ## The TX events of a stream -/

theorem eventsOf_map_tx (bs : List Byte) : eventsOf .enc (bs.map .tx) = bs.map .tx := by
  simp [eventsOf, Event.src]

theorem filterMap_txByte?_map_tx (bs : List Byte) : (bs.map Event.tx).filterMap Event.txByte? = bs := by
  rw [List.filterMap_map]
  exact List.filterMap_some

/-- Only ENC emits TX events (R84). -/
theorem filterMap_txByte?_eventsOf (es : List Event) :
    (eventsOf .enc es).filterMap Event.txByte? = es.filterMap Event.txByte? := by
  rw [eventsOf, List.filterMap_filter]
  congr 1
  funext e
  cases e with
  | tx b => rfl
  | ckv w | rxf u cmd p | err u code info | stv w => exact ite_self _

/-! ## The obligation -/

/-- Settles O27: ENC's operations alone emit the frame, by R59 so do they in the whole run, and an ENC that emits TX
events only has raised no fault. -/
theorem encoderStreamEqualsEncode : Obligations.EncoderStreamEqualsEncode := by
  intro s c p is hinv hst hp hops
  obtain ⟨t, t', ht, ht', henc, hev⟩ := interleavingDoesNotMatter s is .enc hinv (by decide)
  rw [hops] at ht'
  cases (execAll_sendOps c hst hp).symm.trans ht'
  have hstream : eventsOf .enc (newEvents s t) = (frameEncode c p).map .tx := by
    rw [hev, newEvents_of_events_eq (s := s) (State.emit_events (s.withEnc .idle) _), eventsOf_map_tx]
  refine ⟨t, ht, ?_, hstream, henc, execAll_keeps_sequenceBit ht fun e he hsrc => ?_⟩
  · rw [← filterMap_txByte?_eventsOf, hstream, filterMap_txByte?_map_tx]
  · have hmem : e ∈ (frameEncode c p).map .tx := hstream ▸ List.mem_filter.mpr ⟨he, decide_eq_true hsrc⟩
    obtain ⟨b, -, rfl⟩ := List.mem_map.mp hmem
    rfl

end Sys2Proof.Machine
end

section
/-! The decode function on a candidate in the layout of a frame (42_frame_decoder.md R160), and from it what it makes of
an encoded frame, whole (R166), with one byte changed (R167) or with two (R168). -/

namespace Sys2Proof.Machine

/-! ## The checks in their order -/

/-- On a candidate that has the layout of a frame, the cells `frameDecode` reads are the layout's fields (R160, R70). -/
theorem frameDecode_layout (m l c hi lo : Byte) (p : List Byte) :
    frameDecode ([m, l, c] ++ p ++ [hi, lo]) =
      if m ≠ Config.magic then .err (.invalidMagic m)
      else if l.toNat ≠ p.length then .err (.invalidFrameLength l (byteOfNat p.length))
      else if bigEndian hi lo ≠ checksum m ([l, c] ++ p) then
        .err (.invalidCrc (bigEndian hi lo) (checksum m ([l, c] ++ p)))
      else .ok c p := by
  have hlong : ¬ p.length + 1 + 1 + 1 + 1 + 1 < Config.minFrame := by simp [Config.minFrame]
  simp [frameDecode, hlong]

/-- Fewer than 5 bytes with the right magic are too short (R160, R162). -/
theorem frameDecode_short {s : List Byte} (h : s.length < 4) (b : Byte) :
    frameDecode (b :: s) =
      if b ≠ Config.magic then .err (.invalidMagic b) else .err (.frameTooShort (byteOfNat (s.length + 1))) := by
  have hshort : (b :: s).length < Config.minFrame := Nat.succ_lt_succ h
  rw [frameDecode, dif_pos hshort]
  rfl

section Candidate

variable {m l c hi lo : Byte} {p : List Byte}

theorem frameDecode_of_magic_ne (hm : m ≠ Config.magic) :
    frameDecode ([m, l, c] ++ p ++ [hi, lo]) = .err (.invalidMagic m) := by
  rw [frameDecode_layout, if_pos hm]

theorem frameDecode_of_length_ne (hl : l.toNat ≠ p.length) :
    frameDecode ([Config.magic, l, c] ++ p ++ [hi, lo]) = .err (.invalidFrameLength l (byteOfNat p.length)) := by
  rw [frameDecode_layout, if_neg (not_not_intro rfl), if_pos hl]

theorem frameDecode_of_sum_ne (hl : l.toNat = p.length)
    (hsum : bigEndian hi lo ≠ checksum Config.magic ([l, c] ++ p)) :
    frameDecode ([Config.magic, l, c] ++ p ++ [hi, lo]) =
      .err (.invalidCrc (bigEndian hi lo) (checksum Config.magic ([l, c] ++ p))) := by
  rw [frameDecode_layout, if_neg (not_not_intro rfl), if_neg (not_not_intro hl), if_pos hsum]

theorem frameDecode_of_sum_eq (hl : l.toNat = p.length)
    (hsum : bigEndian hi lo = checksum Config.magic ([l, c] ++ p)) :
    frameDecode ([Config.magic, l, c] ++ p ++ [hi, lo]) = .ok c p := by
  rw [frameDecode_layout, if_neg (not_not_intro rfl), if_neg (not_not_intro hl), if_neg (not_not_intro hsum)]

end Candidate

/-- Settles O28. -/
theorem decodeReportsFirstFailingCheck : Obligations.DecodeReportsFirstFailingCheck :=
  ⟨fun m l c hi lo p _ => frameDecode_layout m l c hi lo p, fun b _ h => frameDecode_short h b, rfl⟩

/-! ## An encoded frame -/

/-- Settles O29: the encoder writes the length and the checksum that the decoder checks. -/
theorem decodeOfEncodedFrame : Obligations.DecodeOfEncodedFrame := fun c p hp =>
  frameDecode_of_sum_eq (toNat_byteOfNat hp) (bigEndian_hiByte_loByte (frameSum c p))

/-! ## An encoded frame with one byte changed -/

/-- A change to one byte after the first changes the checksum, the change written as a list update (R104). -/
theorem checksum_set_ne {bs : List Byte} {j : Nat} {x : Byte} (hj : j < bs.length) (hx : bs[j] ≠ x) (s0 : Byte) :
    checksum s0 (bs.set j x) ≠ checksum s0 bs := by
  have hold : bs.take j ++ bs[j] :: bs.drop (j + 1) = bs := by
    rw [List.cons_getElem_drop_succ, List.take_append_drop]
  rw [List.set_eq_take_append_cons_drop, if_pos hj]
  conv_rhs => rw [← hold]
  exact checksum_ne_of_byte_ne hx.symm s0 _ _

/-- A change to one of the bytes that carry a word changes the word (R75). -/
theorem bigEndian_set_ne {hi lo x : Byte} {k : Nat} (hk : k < [hi, lo].length) (hx : [hi, lo][k] ≠ x) :
    ∃ hi' lo', [hi, lo].set k x = [hi', lo'] ∧ bigEndian hi' lo' ≠ bigEndian hi lo := by
  match k, hk with
  | 0, _ => exact ⟨x, lo, rfl, fun h => hx (by simpa using (congrArg hiByte h).symm)⟩
  | 1, _ => exact ⟨hi, x, rfl, fun h => hx (by simpa using (congrArg loByte h).symm)⟩

/-- A change to the command or to a payload byte changes the frame's checksum and no length (R167). -/
theorem frameSum_set_ne {cmd x : Byte} {p : List Byte} {j : Nat} (hj : j < (cmd :: p).length)
    (hx : (cmd :: p)[j] ≠ x) :
    ∃ c' p', (cmd :: p).set j x = c' :: p' ∧ p'.length = p.length ∧ frameSum c' p' ≠ frameSum cmd p := by
  have hlen := List.length_set (as := cmd :: p) (i := j) (a := x)
  obtain ⟨c', p', hset⟩ := List.exists_cons_of_length_eq_add_one hlen
  rw [hset, List.length_cons, List.length_cons, Nat.add_right_cancel_iff] at hlen
  have hsum := checksum_set_ne (bs := byteOfNat p.length :: cmd :: p) (Nat.succ_lt_succ hj) hx Config.magic
  rw [List.set_cons_succ, hset, ← hlen] at hsum
  refine ⟨c', p', hset, hlen, ?_⟩
  rw [frameSum, frameSum, ← hlen]
  exact hsum

/-- What is left of a frame without its magic and its length byte: command, payload and checksum (R70). -/
def frameTail (cmd : Byte) (p : List Byte) : List Byte :=
  (cmd :: p) ++ [hiByte (frameSum cmd p), loByte (frameSum cmd p)]

theorem frameEncode_eq_cons_frameTail (cmd : Byte) (p : List Byte) :
    frameEncode cmd p = Config.magic :: byteOfNat p.length :: frameTail cmd p := rfl

/-- One byte of the tail changed leaves a command, a payload as long as before and a checksum field, and this field is
not the checksum of the bytes before it, since only one of the two has changed (R167). -/
theorem frameTail_set {cmd : Byte} {p : List Byte} {j : Nat} {x : Byte} (hj : j < (frameTail cmd p).length)
    (hx : (frameTail cmd p)[j] ≠ x) :
    ∃ c' p' hi lo, (frameTail cmd p).set j x = (c' :: p') ++ [hi, lo] ∧ p'.length = p.length ∧
      bigEndian hi lo ≠ frameSum c' p' := by
  by_cases hcov : j < (cmd :: p).length
  · have hxcov : (cmd :: p)[j] ≠ x := by simpa only [frameTail, List.getElem_append_left hcov] using hx
    obtain ⟨c', p', hset, hlen, hsum⟩ := frameSum_set_ne hcov hxcov
    refine ⟨c', p', hiByte (frameSum cmd p), loByte (frameSum cmd p), ?_, hlen, ?_⟩
    · rw [frameTail, List.set_append_left j x hcov, hset]
    · rw [bigEndian_hiByte_loByte]
      exact hsum.symm
  · obtain ⟨k, rfl⟩ := Nat.exists_eq_add_of_le (Nat.le_of_not_lt hcov)
    have hk : k < 2 := by rwa [frameTail, List.length_append, Nat.add_lt_add_iff_left] at hj
    have hxk : [hiByte (frameSum cmd p), loByte (frameSum cmd p)][k] ≠ x := by
      simpa only [frameTail, List.getElem_append_right (Nat.le_add_right _ k), Nat.add_sub_cancel_left] using hx
    obtain ⟨hi, lo, hset, hsum⟩ := bigEndian_set_ne hk hxk
    refine ⟨cmd, p, hi, lo, ?_, rfl, bigEndian_hiByte_loByte (frameSum cmd p) ▸ hsum⟩
    rw [frameTail, List.set_append_right _ _ (Nat.le_add_right _ k), Nat.add_sub_cancel_left, hset]

/-- Settles O30: a changed magic or length byte fails its own check, and any other change the checksum's. -/
theorem singleByteTamperIsDetected : Obligations.SingleByteTamperIsDetected := by
  intro c p i x hp hlt hx g
  refine ⟨?_, ?_, fun h2 => ?_⟩
  · rintro rfl
    exact frameDecode_of_magic_ne fun h => hx (congrArg some h.symm)
  · rintro rfl
    refine frameDecode_of_length_ne fun h => hx (congrArg some (BitVec.eq_of_toNat_eq ?_))
    rw [toNat_byteOfNat hp, h]
  · obtain ⟨j, rfl⟩ := Nat.exists_eq_add_of_le' h2
    have hj : j < (frameTail c p).length := Nat.lt_of_add_lt_add_right (n := 2) hlt
    have hxj : (frameTail c p)[j] ≠ x := fun h => hx (List.getElem?_eq_some_iff.mpr ⟨hlt, h⟩)
    obtain ⟨c', p', hi, lo, hset, hlen, hsum⟩ := frameTail_set hj hxj
    have hg : g = [Config.magic, byteOfNat p'.length, c'] ++ p' ++ [hi, lo] := by
      show (frameEncode c p).set (j + 2) x = _
      rw [frameEncode_eq_cons_frameTail, List.set_cons_succ, List.set_cons_succ, hset, hlen]
      rfl
    exact ⟨_, _, (congrArg frameDecode hg).trans (frameDecode_of_sum_ne (toNat_byteOfNat (hlen ▸ hp)) hsum)⟩

/-- Settles O31, by evaluation of the example. -/
theorem twoByteCorruptionCanPass : Obligations.TwoByteCorruptionCanPass := ⟨by decide, by decide⟩

end Sys2Proof.Machine
end

section
/-! The operations of the frame decoder (42_frame_decoder.md R170 to R173), each once, and a run of them. -/

namespace Sys2Proof.Machine

section Operations

variable {s : State}

/-! ## One operation -/

/-- DEC_BYTE with room in the buffer appends the byte (R170). -/
theorem exec_decByte_of_lt (h : s.dec.n < 260) (b : Byte) :
    exec (.decByte b) s = .next (s.withDec { buf := s.dec.buf ++ [b] }) := by
  show execDecByte b s = _
  rw [execDecByte, bufAppend_of_lt h]

/-- DEC_BYTE on a full buffer drops the byte and raises DEC_OVERFLOW (R170). -/
theorem exec_decByte_of_full (h : 260 ≤ s.dec.n) (b : Byte) :
    exec (.decByte b) s = .next (s.raiseUsageFault (.decOverflow b)) := by
  show execDecByte b s = _
  rw [execDecByte, bufAppend_eq_none.mpr h]

theorem exec_decEnd (s : State) :
    exec .decEnd s = .next ((s.withDec .empty).emit [decodeEvent .dec (frameDecode s.dec.buf)]) := rfl

theorem exec_decClr (s : State) : exec .decClr s = .next (s.withDec .empty) := rfl

/-! ## A run of operations -/

/-- The bytes of a candidate that fits are appended in order (R170, R173). -/
theorem execAll_decBytes {bs : List Byte} (h : s.dec.n + bs.length ≤ 260) :
    execAll (bs.map .decByte) s = .next (s.withDec { buf := s.dec.buf ++ bs }) := by
  induction bs generalizing s with
  | nil => rw [List.append_nil]; rfl
  | cons b bs ih =>
    rw [List.length_cons] at h
    have hfit : (s.withDec { buf := s.dec.buf ++ [b] }).dec.n + bs.length ≤ 260 := by
      simp only [State.withDec_dec, DecUnit.n, List.length_append, List.length_singleton] at h ⊢
      omega
    rw [List.map_cons, execAll_cons_next (exec_decByte_of_lt (by omega) b), ih hfit, State.withDec_dec,
      List.append_assoc]
    rfl

end Operations

/-! ## The obligations -/

/-- Settles O33: the buffer after an append is read by the rule of the append. -/
theorem decByteAppendsOrOverflows : Obligations.DecByteAppendsOrOverflows := by
  refine ⟨fun b => opWord_eq_or 0x20#8 b, fun s b h => ?_, fun s b h => exec_decByte_of_full h.ge b⟩
  have hread := bufRead_bufAppend (bufAppend_of_lt h b)
  refine ⟨s.dec.buf ++ [b], exec_decByte_of_lt h b, List.length_append, ?_, fun a ha => ?_⟩
  · exact (hread s.dec.n).trans (if_pos rfl)
  · exact (hread a).trans (if_neg ha)

/-- Settles O34, by what the candidate decodes to. -/
theorem decEndDecodesAndEmpties : Obligations.DecEndDecodesAndEmpties := by
  refine ⟨rfl, fun s c p h => ?_, fun s e h => ?_, fun s => ⟨_, exec_decEnd s, bufRead_nil⟩⟩
  · rw [exec_decEnd, h]; rfl
  · rw [exec_decEnd, h]; rfl

/-- Settles O35. -/
theorem decClrDiscardsCandidate : Obligations.DecClrDiscardsCandidate := ⟨rfl, exec_decClr⟩

/-- Settles O36: the bytes fill the empty buffer with the candidate, and DEC_END reports what it decodes to. -/
theorem decoderRunEqualsDecode : Obligations.DecoderRunEqualsDecode := by
  intro s bs hn hbs
  have hbuf : s.dec.buf = [] := List.length_eq_zero_iff.mp hn
  refine execAll_append_eq_next.mpr ⟨_, execAll_decBytes (by omega), ?_⟩
  rw [execAll_cons_next (exec_decEnd _), State.withDec_dec, hbuf, List.nil_append]
  cases frameDecode bs with
  | ok c p => rfl
  | err e => rfl

end Sys2Proof.Machine
end

section
/-! The operations of the synchronizer (43_synchronizer.md R191 to R196, R198, R199), each once and state by state. -/

namespace Sys2Proof.Machine

section Operations

variable {s : State}

/-! ## One operation -/

/-- SYNC_BYTE does the transition of the state SYNC is in (R198). -/
theorem exec_syncByte_eq {st : SyncState} (h : s.sync.state = st) (b : Byte) :
    exec (.syncByte b) s = syncTransition st b s := by
  subst h
  exact execSyncByte_eq_syncTransition b s

/-- A magic byte in SEEKING begins a frame (R191). -/
theorem exec_syncByte_of_seeking_magic (h : s.sync.state = .seeking) (hroom : s.sync.n < 260) :
    exec (.syncByte Config.magic) s =
      .next (s.withSync { s.sync with state := .length, buf := s.sync.buf ++ [Config.magic] }) :=
  ((exec_syncByte_eq h _).trans (if_pos rfl)).trans (syncAppend_of_lt hroom _ _)

/-- Any other byte in SEEKING is discarded (R191). -/
theorem exec_syncByte_of_seeking_ne_magic (h : s.sync.state = .seeking) {b : Byte} (hb : b ≠ Config.magic) :
    exec (.syncByte b) s = .next (s.withSync { s.sync with buf := [] }) :=
  (exec_syncByte_eq h b).trans (if_neg hb)

/-- The byte in LENGTH is the length byte (R192). -/
theorem exec_syncByte_of_length (h : s.sync.state = .length) (hroom : s.sync.n < 260) (b : Byte) :
    exec (.syncByte b) s =
      .next (s.withSync { s.sync with state := .command, buf := s.sync.buf ++ [b], len := b }) :=
  (exec_syncByte_eq h b).trans (syncAppend_of_lt hroom b _)

/-- The byte in COMMAND is followed by the payload, if there is one (R193). -/
theorem exec_syncByte_of_command (h : s.sync.state = .command) (hroom : s.sync.n < 260) (b : Byte) :
    exec (.syncByte b) s = .next (s.withSync { s.sync with
      state := if s.sync.len = 0#8 then .crcHigh else .data, buf := s.sync.buf ++ [b], cnt := 0#8 }) :=
  (exec_syncByte_eq h b).trans (syncAppend_of_lt hroom b _)

/-- A byte in DATA is counted, and the last one ends the payload (R194). -/
theorem exec_syncByte_of_data (h : s.sync.state = .data) (hroom : s.sync.n < 260) (b : Byte) :
    exec (.syncByte b) s = .next (s.withSync { s.sync with
      state := if s.sync.cnt + 1#8 = s.sync.len then .crcHigh else .data
      buf := s.sync.buf ++ [b], cnt := s.sync.cnt + 1#8 }) :=
  (exec_syncByte_eq h b).trans (syncAppend_of_lt hroom b _)

/-- The byte in CRC_HIGH leaves one to come (R195). -/
theorem exec_syncByte_of_crcHigh (h : s.sync.state = .crcHigh) (hroom : s.sync.n < 260) (b : Byte) :
    exec (.syncByte b) s = .next (s.withSync { s.sync with state := .crcLow, buf := s.sync.buf ++ [b] }) :=
  (exec_syncByte_eq h b).trans (syncAppend_of_lt hroom b _)

/-- The byte in CRC_LOW completes the candidate, whose decode is reported (R196). -/
theorem exec_syncByte_of_crcLow (h : s.sync.state = .crcLow) (hroom : s.sync.n < 260) (b : Byte) :
    exec (.syncByte b) s =
      .next ((s.withSync .seeking).emit [decodeEvent .sync (frameDecode (s.sync.buf ++ [b]))]) :=
  (exec_syncByte_eq h b).trans (syncAppend_of_lt hroom b _)

theorem exec_syncAbort (s : State) : exec .syncAbort s = .next (s.withSync .seeking) := rfl

/-- What the byte before the last has in common in all states: it is appended, and nothing but SYNC changes. -/
theorem exec_syncByte_appends {b : Byte} (hroom : s.sync.n < 260) (hlast : s.sync.state ≠ .crcLow)
    (hmagic : s.sync.state = .seeking → b = Config.magic) :
    ∃ u, exec (.syncByte b) s = .next (s.withSync u) ∧ u.buf = s.sync.buf ++ [b] := by
  cases hst : s.sync.state with
  | seeking =>
    obtain rfl := hmagic hst
    exact ⟨_, exec_syncByte_of_seeking_magic hst hroom, rfl⟩
  | length => exact ⟨_, exec_syncByte_of_length hst hroom b, rfl⟩
  | command => exact ⟨_, exec_syncByte_of_command hst hroom b, rfl⟩
  | data => exact ⟨_, exec_syncByte_of_data hst hroom b, rfl⟩
  | crcHigh => exact ⟨_, exec_syncByte_of_crcHigh hst hroom b, rfl⟩
  | crcLow => exact absurd hst hlast

end Operations

/-! ## The obligations of single operations -/

/-- Settles O37, state by state. -/
theorem syncByteTransitions : Obligations.SyncByteTransitions := by
  refine ⟨fun b => opWord_eq_or 0x30#8 b, fun s b hroom => ⟨?magic, ?noise, ?length, ?command, ?data, ?crcHigh, ?crcLow⟩⟩
  case magic =>
    rintro hst rfl
    exact exec_syncByte_of_seeking_magic hst hroom
  case noise => exact fun hst hb => exec_syncByte_of_seeking_ne_magic hst hb
  case length => exact fun hst => exec_syncByte_of_length hst hroom b
  case command => exact fun hst => exec_syncByte_of_command hst hroom b
  case data => exact fun hst _ => exec_syncByte_of_data hst hroom b
  case crcHigh => exact fun hst => exec_syncByte_of_crcHigh hst hroom b
  case crcLow =>
    intro hst
    rw [exec_syncByte_of_crcLow hst hroom b]
    cases frameDecode (s.sync.buf ++ [b]) with
    | ok c p => rfl
    | err e => rfl

/-- Settles O39. -/
theorem syncAbortReturnsToSeeking : Obligations.SyncAbortReturnsToSeeking := ⟨rfl, exec_syncAbort⟩

end Sys2Proof.Machine
end

section
/-! What the synchronizer hands to `decode` (43_synchronizer.md R203): a candidate with the magic byte and the length its
length byte announces, on which only the checksum can fail. -/

namespace Sys2Proof.Machine

/-! ## A candidate of the announced length -/

/-- Three bytes and `n` more are a command, a payload of `n` bytes and a checksum field (R70). -/
theorem exists_layout_of_length_eq {bs : List Byte} {n : Nat} (h : bs.length = 3 + n) :
    ∃ c p hi lo, bs = c :: p ++ [hi, lo] ∧ p.length = n := by
  obtain ⟨c, rest, rfl⟩ := List.exists_cons_of_length_eq_add_one (h.trans (Nat.add_right_comm 2 1 n))
  have hrest : rest.length = 2 + n := by simp only [List.length_cons] at h; omega
  have hsum : (rest.drop n).length = 2 := by rw [List.length_drop, hrest]; omega
  obtain ⟨hi, lo, hdrop⟩ := List.length_eq_two.mp hsum
  refine ⟨c, rest.take n, hi, lo, ?_, by rw [List.length_take, hrest]; omega⟩
  rw [← hdrop, List.cons_append, List.take_append_drop]

/-- The magic byte and the announced length leave the checksum as the one check that can fail (R160). -/
theorem frameDecode_of_announced_length {l : Byte} {bs : List Byte} (h : bs.length = 3 + l.toNat) :
    (∃ c p, frameDecode (Config.magic :: l :: bs) = .ok c p) ∨
      ∃ e k, frameDecode (Config.magic :: l :: bs) = .err (.invalidCrc e k) := by
  obtain ⟨c, p, hi, lo, rfl, hp⟩ := exists_layout_of_length_eq h
  by_cases hsum : bigEndian hi lo = checksum Config.magic ([l, c] ++ p)
  · exact .inl ⟨_, _, frameDecode_of_sum_eq hp.symm hsum⟩
  · exact .inr ⟨_, _, frameDecode_of_sum_ne hp.symm hsum⟩

/-! ## The buffer of a frame in progress -/

/-- The header, read as the front of the buffer (R191, R192). -/
theorem SyncUnit.exists_buf_of_headerOk {u : SyncUnit} (h : u.headerOk = true) :
    ∃ bs, u.buf = Config.magic :: u.len :: bs := by
  obtain ⟨hmagic, hlen⟩ := headerOk_iff.mp h
  match hbuf : u.buf with
  | [] => rw [hbuf] at hmagic; cases hmagic
  | [b] => rw [hbuf] at hlen; cases hlen
  | b :: l :: bs =>
    rw [hbuf] at hmagic hlen
    exact ⟨bs, by rw [Option.some.inj hmagic, Option.some.inj hlen]⟩

/-- In CRC_LOW all of the frame but its last byte is held (R30). -/
theorem SyncUnit.exists_buf_of_crcLow {u : SyncUnit} (hinv : u.inv = true) (hst : u.state = .crcLow) :
    ∃ bs, u.buf = Config.magic :: u.len :: bs ∧ bs.length = 2 + u.len.toNat := by
  obtain ⟨hn, hhdr, -⟩ := (inv_crcLow hst).mp hinv
  obtain ⟨bs, hbuf⟩ := exists_buf_of_headerOk hhdr
  refine ⟨bs, hbuf, ?_⟩
  rw [hbuf, List.length_cons, List.length_cons] at hn
  omega

/-- The completed candidate of CRC_LOW has the length its length byte announces (R203). -/
theorem SyncUnit.exists_candidate_of_crcLow {u : SyncUnit} (hinv : u.inv = true) (hst : u.state = .crcLow) (b : Byte) :
    ∃ bs, u.buf ++ [b] = Config.magic :: u.len :: bs ∧ bs.length = 3 + u.len.toNat := by
  obtain ⟨bs, hbuf, hn⟩ := exists_buf_of_crcLow hinv hst
  refine ⟨bs ++ [b], by rw [hbuf]; rfl, ?_⟩
  rw [List.length_append, hn, List.length_singleton]
  omega

/-! ## The errors reported -/

/-- A byte emits nothing, or it is the last one of a candidate and emits what that decodes to (R190 to R196). -/
theorem exec_syncByte_newEvents {s t : State} {b : Byte} (hinv : s.sync.inv = true)
    (h : exec (.syncByte b) s = .next t) :
    newEvents s t = [] ∨
      (s.sync.state = .crcLow ∧ newEvents s t = [decodeEvent .sync (frameDecode (s.sync.buf ++ [b]))]) := by
  have hroom := SyncUnit.room_of_inv hinv
  by_cases hlast : s.sync.state = .crcLow
  · cases (exec_syncByte_of_crcLow hlast hroom b).symm.trans h
    exact .inr ⟨hlast, newEvents_of_events_eq (s := s) (State.emit_events (s.withSync .seeking) _)⟩
  · have hquiet : ∃ u, exec (.syncByte b) s = .next (s.withSync u) := by
      by_cases hnoise : s.sync.state = .seeking ∧ b ≠ Config.magic
      · obtain ⟨hst, hb⟩ := hnoise
        exact ⟨_, exec_syncByte_of_seeking_ne_magic hst hb⟩
      · obtain ⟨u, hu, -⟩ := exec_syncByte_appends hroom hlast fun hst => not_not.mp fun hb => hnoise ⟨hst, hb⟩
        exact ⟨u, hu⟩
    obtain ⟨u, hu⟩ := hquiet
    cases hu.symm.trans h
    exact .inl (newEvents_of_events_eq (List.append_nil s.events).symm)

/-- Settles O43: only the checksum can fail on the candidate of CRC_LOW, and no other byte emits an event. -/
theorem synchronizerReportsOnlyInvalidCrc : Obligations.SynchronizerReportsOnlyInvalidCrc := by
  refine ⟨fun s b hinv hst => ?candidate, fun s t b u code info hinv hexec herr => ?errors, rfl⟩
  case candidate =>
    obtain ⟨-, -, -, hsync⟩ := (State.inv_iff s).mp hinv
    obtain ⟨bs, hbuf, hn⟩ := SyncUnit.exists_candidate_of_crcLow hsync hst b
    rw [hbuf]
    refine ⟨rfl, ⟨s.sync.len, rfl, ?_⟩, frameDecode_of_announced_length hn⟩
    rw [List.length_cons, List.length_cons, hn]
    omega
  case errors =>
    obtain ⟨-, -, -, hsync⟩ := (State.inv_iff s).mp hinv
    obtain hnone | ⟨hst, hev⟩ := exec_syncByte_newEvents hsync hexec
    · rw [hnone] at herr
      exact absurd herr List.not_mem_nil
    · obtain ⟨bs, hbuf, hn⟩ := SyncUnit.exists_candidate_of_crcLow hsync hst b
      rw [hev, hbuf, List.mem_singleton] at herr
      obtain ⟨c, p, hok⟩ | ⟨e, k, hcrc⟩ := frameDecode_of_announced_length hn
      · rw [hok] at herr
        cases herr
      · rw [hcrc] at herr
        cases herr
        exact ⟨rfl, rfl, e, k, rfl⟩

end Sys2Proof.Machine
end

section
/-! Streams through the synchronizer (43_synchronizer.md R200, R201, R205). Under R30 the bytes held decide the rest of
SYNC: a buffer that begins with the magic byte and a length byte `l` is a frame in progress, whose next byte is the last
exactly when `4 + l` bytes are held. So a run needs to follow the invariant and the buffer only. -/

namespace Sys2Proof.Machine

variable {s : State} {u : SyncUnit}

/-! ## What the buffer says of SYNC -/

theorem SyncUnit.state_ne_seeking_of_buf {b : Byte} {bs : List Byte} (hinv : u.inv = true) (hbuf : u.buf = b :: bs) :
    u.state ≠ .seeking := fun hst => by
  obtain ⟨hnil, -⟩ := (inv_seeking hst).mp hinv
  exact List.cons_ne_nil b bs (hbuf.symm.trans hnil)

/-- With fewer than 4 bytes held the next byte is not the last. -/
theorem SyncUnit.state_ne_crcLow_of_short (hinv : u.inv = true) (hshort : u.buf.length < 4) : u.state ≠ .crcLow :=
  fun hst => by
    obtain ⟨hn, -⟩ := (inv_crcLow hst).mp hinv
    omega

/-- Past the length byte the header holds (R192). -/
theorem SyncUnit.headerOk_of_buf {m l : Byte} {bs : List Byte} (hinv : u.inv = true) (hbuf : u.buf = m :: l :: bs) :
    u.headerOk = true := by
  cases hst : u.state with
  | seeking => exact absurd hst (state_ne_seeking_of_buf hinv hbuf)
  | length =>
    obtain ⟨hmagic, -⟩ := (inv_length hst).mp hinv
    cases hbuf.symm.trans hmagic
  | command =>
    obtain ⟨hhdr, -⟩ := (inv_command hst).mp hinv
    exact headerOk_iff.mpr (by simp [hhdr])
  | data =>
    obtain ⟨-, hhdr, -⟩ := (inv_data hst).mp hinv
    exact hhdr
  | crcHigh =>
    obtain ⟨-, hhdr, -⟩ := (inv_crcHigh hst).mp hinv
    exact hhdr
  | crcLow =>
    obtain ⟨-, hhdr, -⟩ := (inv_crcLow hst).mp hinv
    exact hhdr

theorem SyncUnit.len_of_buf {m l : Byte} {bs : List Byte} (hinv : u.inv = true) (hbuf : u.buf = m :: l :: bs) :
    u.len = l := by
  obtain ⟨bs', hhdr⟩ := exists_buf_of_headerOk (headerOk_of_buf hinv hbuf)
  cases hbuf.symm.trans hhdr
  rfl

/-- The next byte is the last exactly when all but one of the `5 + l` bytes are held (R30, R205). -/
theorem SyncUnit.state_eq_crcLow_iff {m l : Byte} {bs : List Byte} (hinv : u.inv = true) (hbuf : u.buf = m :: l :: bs) :
    u.state = .crcLow ↔ bs.length = 2 + l.toNat := by
  have hn : u.buf.length = bs.length + 2 := congrArg List.length hbuf
  obtain rfl := len_of_buf hinv hbuf
  cases hst : u.state with
  | seeking => exact absurd hst (state_ne_seeking_of_buf hinv hbuf)
  | length =>
    obtain ⟨hmagic, -⟩ := (inv_length hst).mp hinv
    cases hbuf.symm.trans hmagic
  | command =>
    obtain ⟨hhdr, -⟩ := (inv_command hst).mp hinv
    cases hbuf.symm.trans hhdr
    exact iff_of_false (by decide) (by simp only [List.length_nil]; omega)
  | data =>
    obtain ⟨hheld, -, -, hcnt⟩ := (inv_data hst).mp hinv
    exact iff_of_false (by decide) (by omega)
  | crcHigh =>
    obtain ⟨hheld, -⟩ := (inv_crcHigh hst).mp hinv
    exact iff_of_false (by decide) (by omega)
  | crcLow =>
    obtain ⟨hheld, -⟩ := (inv_crcLow hst).mp hinv
    exact iff_of_true rfl (by omega)

/-! ## Noise -/

/-- Under R30 the byte that SEEKING discards changes nothing: the buffer was empty already. -/
theorem exec_syncByte_of_noise (hinv : s.sync.inv = true) (hst : s.sync.state = .seeking) {b : Byte}
    (hb : b ≠ Config.magic) : exec (.syncByte b) s = .next s := by
  obtain ⟨hbuf, -⟩ := (SyncUnit.inv_seeking hst).mp hinv
  rw [exec_syncByte_of_seeking_ne_magic hst hb, ← hbuf]
  rfl

theorem execAll_noise (hinv : s.sync.inv = true) (hst : s.sync.state = .seeking) {bs : List Byte}
    (hbs : ∀ b ∈ bs, b ≠ Config.magic) : execAll (bs.map .syncByte) s = .next s := by
  induction bs with
  | nil => rfl
  | cons b bs ih =>
    obtain ⟨hb, hrest⟩ := List.forall_mem_cons.mp hbs
    rw [List.map_cons, execAll_cons_next (exec_syncByte_of_noise hinv hst hb)]
    exact ih hrest

/-- Settles O40. -/
theorem noiseIsDiscarded : Obligations.NoiseIsDiscarded := fun s _ hinv hst hbs => by
  obtain ⟨-, -, -, hsync⟩ := (State.inv_iff s).mp hinv
  exact execAll_noise hsync hst hbs

/-! ## A frame in progress -/

/-- A byte that is appended keeps the invariant, and changes nothing but SYNC. -/
theorem exec_syncByte_receives {b : Byte} (hinv : s.sync.inv = true) (hlast : s.sync.state ≠ .crcLow)
    (hmagic : s.sync.state = .seeking → b = Config.magic) :
    ∃ u, exec (.syncByte b) s = .next (s.withSync u) ∧ u.inv = true ∧ u.buf = s.sync.buf ++ [b] := by
  obtain ⟨u, hu, hbuf⟩ := exec_syncByte_appends (SyncUnit.room_of_inv hinv) hlast hmagic
  exact ⟨u, hu, execSyncByte_keeps_inv hinv hu, hbuf⟩

/-- Bytes after the length byte are held as long as they do not complete the frame (R193 to R195). -/
theorem execAll_syncBytes_receive {l : Byte} {held bs : List Byte} (hinv : s.sync.inv = true)
    (hbuf : s.sync.buf = Config.magic :: l :: held) (hlt : held.length + bs.length < 3 + l.toNat) :
    ∃ u, execAll (bs.map .syncByte) s = .next (s.withSync u) ∧ u.inv = true ∧
      u.buf = Config.magic :: l :: (held ++ bs) := by
  induction bs generalizing s held with
  | nil => exact ⟨s.sync, rfl, hinv, by rw [hbuf, List.append_nil]⟩
  | cons b bs ih =>
    rw [List.length_cons] at hlt
    have hlast : s.sync.state ≠ .crcLow := fun hst => by
      have := (SyncUnit.state_eq_crcLow_iff hinv hbuf).mp hst
      omega
    obtain ⟨u, hu, huinv, hubuf⟩ := exec_syncByte_receives (b := b) hinv hlast fun hst =>
      absurd hst (SyncUnit.state_ne_seeking_of_buf hinv hbuf)
    have hheld : (s.withSync u).sync.buf = Config.magic :: l :: (held ++ [b]) := by
      rw [State.withSync_sync, hubuf, hbuf]
      rfl
    obtain ⟨v, hv, hvinv, hvbuf⟩ := ih huinv hheld (by rw [List.length_append, List.length_singleton]; omega)
    refine ⟨v, ?_, hvinv, by rw [hvbuf, List.append_assoc]; rfl⟩
    rw [List.map_cons, execAll_cons_next hu, hv]
    rfl

/-- From SEEKING, a magic byte, a length byte and too few bytes to complete the frame are all held (R205). -/
theorem execAll_partialFrame (hinv : s.sync.inv = true) (hst : s.sync.state = .seeking) {l : Byte} {bs : List Byte}
    (hlt : bs.length < 3 + l.toNat) :
    ∃ u, execAll ((Config.magic :: l :: bs).map .syncByte) s = .next (s.withSync u) ∧ u.inv = true ∧
      u.buf = Config.magic :: l :: bs := by
  obtain ⟨hempty, -⟩ := (SyncUnit.inv_seeking hst).mp hinv
  obtain ⟨u, hu, huinv, hubuf⟩ := exec_syncByte_receives hinv (by rw [hst]; decide) fun _ => rfl
  rw [hempty, List.nil_append] at hubuf
  have hnotLast : u.state ≠ .crcLow := SyncUnit.state_ne_crcLow_of_short huinv (by simp [hubuf])
  obtain ⟨v, hv, hvinv, hvbuf⟩ := exec_syncByte_receives (s := s.withSync u) (b := l) huinv hnotLast fun hseek =>
    absurd hseek (SyncUnit.state_ne_seeking_of_buf huinv hubuf)
  rw [State.withSync_sync, hubuf] at hvbuf
  obtain ⟨w, hw, hwinv, hwbuf⟩ := execAll_syncBytes_receive (s := (s.withSync u).withSync v) (held := []) (bs := bs)
    hvinv hvbuf (by rwa [List.length_nil, Nat.zero_add])
  refine ⟨w, ?_, hwinv, hwbuf⟩
  rw [List.map_cons, List.map_cons, execAll_cons_next hu, execAll_cons_next hv, hw]
  rfl

/-- From SEEKING, a magic byte, a length byte and just enough bytes to complete the frame emit what they decode to
(R196, R205). -/
theorem execAll_wholeFrame (hinv : s.sync.inv = true) (hst : s.sync.state = .seeking) {l : Byte} {bs : List Byte}
    (hlen : bs.length = 3 + l.toNat) :
    execAll ((Config.magic :: l :: bs).map .syncByte) s =
      .next ((s.withSync .seeking).emit [decodeEvent .sync (frameDecode (Config.magic :: l :: bs))]) := by
  obtain rfl | ⟨front, last, rfl⟩ := List.eq_nil_or_concat' bs
  · rw [List.length_nil] at hlen
    omega
  rw [List.length_append, List.length_singleton] at hlen
  obtain ⟨u, hu, huinv, hubuf⟩ := execAll_partialFrame (l := l) (bs := front) hinv hst (by omega)
  have hlast : u.state = .crcLow := (SyncUnit.state_eq_crcLow_iff huinv hubuf).mpr (by omega)
  have hexec := exec_syncByte_of_crcLow (s := s.withSync u) hlast (SyncUnit.room_of_inv huinv) last
  rw [← List.cons_append, ← List.cons_append, List.map_append, execAll_append_eq_next]
  refine ⟨s.withSync u, hu, ?_⟩
  rw [List.map_singleton, execAll_cons_next hexec, State.withSync_sync, hubuf]
  rfl

/-! ## Whole frames -/

theorem unitOf_eq_sync {i : Instr} (h : unitOf i = .sync) : (∃ b, i = .syncByte b) ∨ i = .syncAbort := by
  cases i with
  | syncByte b => exact .inl ⟨b, rfl⟩
  | syncAbort => exact .inr rfl
  | _ => cases h

/-- The step with a legal word next is its operation, with the word taken (44_control.md R232). -/
theorem step_of_instr {w : Word} {rest : List Input} {i : Instr} (hin : s.input = .word w :: rest)
    (hdec : decode w = .instr i) : step s = exec i (s.withInput rest) := by
  rw [step, takeInput_eq_some.mpr ⟨rest, hin, rfl⟩]
  simp only [hdec]

/-- A word that is no SYNC operation leaves SYNC as it is (R27, R231). -/
theorem step_keeps_sync {t : State} {w : Word} {rest : List Input} (hin : s.input = .word w :: rest)
    (hunit : ∀ i, decode w = .instr i → unitOf i ≠ .sync) (h : step s = .next t) : t.sync = s.sync := by
  cases hdec : decode w with
  | instr i =>
    rw [step_of_instr hin hdec] at h
    obtain ⟨-, -, -, hsync, -⟩ := (exec_actsOn i h).frame h
    exact hsync (hunit i hdec)
  | illegal r =>
    cases (step_of_illegal hin hdec).symm.trans h
    rfl

/-- Settles O42: the frame in progress, the completed frame, and the words of other units. -/
theorem synchronizerWaitsForWholeFrame : Obligations.SynchronizerWaitsForWholeFrame := by
  refine ⟨fun s l bs hinv hst hlt => ?held, fun s l bs hinv hst hlen => ?complete,
    fun s t w rest hin hbyte habort h => ?others⟩
  case held =>
    obtain ⟨-, -, -, hsync⟩ := (State.inv_iff s).mp hinv
    obtain ⟨u, hu, huinv, hubuf⟩ := execAll_partialFrame hsync hst hlt
    exact ⟨s.withSync u, hu, rfl, SyncUnit.state_ne_seeking_of_buf huinv hubuf, hubuf,
      SyncUnit.len_of_buf huinv hubuf, rfl, rfl, rfl, rfl⟩
  case complete =>
    obtain ⟨-, -, -, hsync⟩ := (State.inv_iff s).mp hinv
    refine (execAll_wholeFrame hsync hst hlen).trans ?_
    rw [Config.magic]
    cases frameDecode (0x2A#8 :: l :: bs) with
    | ok c p => rfl
    | err e => rfl
  case others =>
    refine step_keeps_sync hin (fun i hdec hunit => ?_) h
    obtain ⟨b, rfl⟩ | rfl := unitOf_eq_sync hunit
    · exact hbyte b hdec
    · exact habort hdec

/-- Settles O41: the noise changes nothing, the frame without its last byte is one in progress, and the whole frame is
reported as what it decodes to. -/
theorem synchronizerReceivesEncodedFrame : Obligations.SynchronizerReceivesEncodedFrame := by
  intro s noise c p hinv hst hnoise hp
  obtain ⟨-, -, -, hsync⟩ := (State.inv_iff s).mp hinv
  have hlen : (frameTail c p).length = 3 + (byteOfNat p.length).toNat := by
    rw [toNat_byteOfNat hp, frameTail, List.length_append, List.length_cons]
    simp only [List.length_cons, List.length_nil]
    omega
  have hskip := execAll_noise hsync hst hnoise
  rw [List.map_append, List.map_append]
  refine ⟨?beforeLast, execAll_append_eq_next.mpr ⟨s, hskip, ?whole⟩⟩
  case beforeLast =>
    have hlt : (frameTail c p).dropLast.length < 3 + (byteOfNat p.length).toNat := by
      rw [List.length_dropLast]
      omega
    obtain ⟨u, hu, -⟩ := execAll_partialFrame hsync hst hlt
    exact ⟨s.withSync u, execAll_append_eq_next.mpr ⟨s, hskip, hu⟩, rfl⟩
  case whole =>
    rw [frameEncode_eq_cons_frameTail, execAll_wholeFrame hsync hst hlen, ← frameEncode_eq_cons_frameTail,
      decodeOfEncodedFrame c p hp]
    rfl

end Sys2Proof.Machine
end

section
/-! The control operations (44_control.md R230 to R232): the fields of the STATUS word, and the step with an illegal
word next. -/

namespace Sys2Proof

/-- A no-argument opcode with a nonzero argument byte is rejected (R82). -/
theorem decode_of_nonzeroArgument {w : Word} (hop : takesNoArgument (opField w) = true) (harg : argField w ≠ 0#8) :
    decode w = .illegal (.nonzeroArgument (opField w) (argField w)) := by
  obtain ⟨i, hi⟩ := decodeFields_of_takesNoArgument hop (argField w)
  rw [decode, hi, decodeNoArg_of_ne harg]

end Sys2Proof

namespace Sys2Proof.Machine

section
variable (s : State)

/-! ## The fields of the STATUS word (10_state.md R25) -/

theorem statusWord_fault : (statusWord s).extractLsb' 0 4 = s.fault := BitVec.extractLsb'_append_eq_right

theorem statusWord_ckEmpty : (statusWord s).getLsbD 4 = s.ck.empty := by
  simp only [statusWord, BitVec.getLsbD_append]
  simp

theorem statusWord_encState : (statusWord s).extractLsb' 5 2 = s.enc.state.code := by
  rw [statusWord, BitVec.extractLsb'_append_eq_of_le (by decide), BitVec.extractLsb'_append_eq_of_le (by decide)]
  exact BitVec.extractLsb'_append_eq_right

theorem statusWord_bit7 : (statusWord s).getLsbD 7 = false := by
  simp only [statusWord, BitVec.getLsbD_append]
  simp

theorem statusWord_syncState : (statusWord s).extractLsb' 8 3 = s.sync.state.code := by
  rw [statusWord]
  iterate 4 rw [BitVec.extractLsb'_append_eq_of_le (by decide)]
  exact BitVec.extractLsb'_append_eq_right

theorem statusWord_high : (statusWord s).extractLsb' 11 5 = 0#5 := by
  rw [statusWord]
  iterate 4 rw [BitVec.extractLsb'_append_eq_of_le (by decide)]
  exact BitVec.extractLsb'_append_eq_left

end

theorem exec_statRead (s : State) : exec .statRead s = .next (s.emit [.stv (statusWord s)]) := rfl

/-- Settles O45: the word emitted is `statusWord`, read field by field. -/
theorem statReadReportsStatus : Obligations.StatReadReportsStatus := by
  refine ⟨rfl, fun s => ⟨statusWord s, exec_statRead s, statusWord_fault s, statusWord_ckEmpty s, ?enc,
    statusWord_bit7 s, ?sync, statusWord_high s⟩⟩
  case enc =>
    rw [statusWord_encState]
    cases s.enc.state <;> rfl
  case sync =>
    rw [statusWord_syncState]
    cases s.sync.state <;> rfl

/-- Settles O9: the decoder rejects both kinds of word, and the step with a rejected word next is R231's fault. -/
theorem illegalWordRaisesIllegalOp : Obligations.IllegalWordRaisesIllegalOp := by
  intro s w rest hin hkind
  have hillegal : ∃ r, decode w = .illegal r := by
    obtain hop | ⟨hop, harg⟩ := hkind
    · have harg : takesArgument (opField w) = false := by simp_all [takesArgument]
      have hno : takesNoArgument (opField w) = false := by simp_all [takesNoArgument]
      exact ⟨_, decodeFields_of_unassigned harg hno (argField w)⟩
    · exact ⟨_, decode_of_nonzeroArgument (List.contains_iff_mem.mpr hop) harg⟩
  obtain ⟨r, hdec⟩ := hillegal
  exact step_of_illegal hin hdec

end Sys2Proof.Machine
end

section
/-! The errors of one operation and of one step (60_exceptions.md R242 to R245). A step reports no error, one usage
fault or one decode error; `Reports` says what each of the three leaves, and `MayReport` which of them an operation can
come to. -/

namespace Sys2Proof.Machine

/-! ## The three kinds of report -/

/-- What a step reports: no error, a usage fault (R243) or a decode error of a unit that decodes (R242). -/
inductive Report where
  | noError
  | usageFault (f : UsageFault)
  | decodeError (u : RxSrc) (e : DecodeError)

/-- The ERR event of a report, if it is of an error (R85). -/
def Report.error? : Report → Option Event
  | .noError => none
  | .usageFault f => some f.event
  | .decodeError u e => some (decodeEvent u (.err e))

/-- The state after a unit answered for its candidate with a decode result and is ready for the next one (R171, R196,
R242). -/
def State.answerCandidate (s : State) (u : RxSrc) (r : DecodeResult) : State :=
  match u with
  | .dec => (s.withDec .empty).emit [decodeEvent .dec r]
  | .sync => (s.withSync .seeking).emit [decodeEvent .sync r]

@[simp] theorem State.answerCandidate_fault (s : State) (u : RxSrc) (r : DecodeResult) :
    (s.answerCandidate u r).fault = s.fault := by
  cases u <;> rfl

@[simp] theorem State.answerCandidate_events (s : State) (u : RxSrc) (r : DecodeResult) :
    (s.answerCandidate u r).events = s.events ++ [decodeEvent u r] := by
  cases u <;> rfl

/-- The state `s` came to `t` with a report: without an error the fault bits stay and no new event is an ERR, and an
error fixes all of `t`. -/
inductive Reports (s : State) : Report → State → Prop where
  | noError {t : State} {es : List Event} (hfault : t.fault = s.fault) (hevents : t.events = s.events ++ es)
      (hquiet : ∀ e ∈ es, e.isErr = false) : Reports s .noError t
  | usageFault (f : UsageFault) : Reports s (.usageFault f) (s.raiseUsageFault f)
  | decodeError (u : RxSrc) (e : DecodeError) : Reports s (.decodeError u e) (s.answerCandidate u (.err e))

/-- The reports the rule names for each operation (R245). -/
inductive MayReport : Instr → Report → Prop where
  | noError (i : Instr) : MayReport i .noError
  | ckRead : MayReport .ckRead (.usageFault .ckEmpty)
  | encLen (l : Byte) : MayReport (.encLen l) (.usageFault (.sequence (encode (.encLen l))))
  | encCmd (c : Byte) : MayReport (.encCmd c) (.usageFault (.sequence (encode (.encCmd c))))
  | encData (d : Byte) : MayReport (.encData d) (.usageFault (.sequence (encode (.encData d))))
  | decByte (b : Byte) : MayReport (.decByte b) (.usageFault (.decOverflow b))
  | decEnd (e : DecodeError) : MayReport .decEnd (.decodeError .dec e)
  | syncByte (b : Byte) (e : DecodeError) : MayReport (.syncByte b) (.decodeError .sync e)

/-- From `s` to `t` there was one of the reports the rule names for the operation. -/
def ReportsAsNamed (i : Instr) (s t : State) : Prop := ∃ r, MayReport i r ∧ Reports s r t

/-! ## The codes of the errors (R85) -/

theorem DecodeError.code_bounds (e : DecodeError) : 0x01 ≤ e.code.toNat ∧ e.code.toNat ≤ 0x04 := by
  cases e with
  | invalidMagic _ | invalidFrameLength _ _ | invalidCrc _ _ | frameTooShort _ => simp [DecodeError.code]

/-- A usage fault's code is 0x10 above the number of its bit (R24, R85). -/
theorem UsageFault.exists_bit (f : UsageFault) : ∃ k < 4, f.code.toNat = 0x10 + k ∧ f.mask = 1#4 <<< k := by
  cases f with
  | ckEmpty => exact ⟨0, by decide, rfl, rfl⟩
  | illegalOp w => exact ⟨1, by decide, rfl, rfl⟩
  | sequence w => exact ⟨2, by decide, rfl, rfl⟩
  | decOverflow b => exact ⟨3, by decide, rfl, rfl⟩

section

variable {s t : State} {r : Report}

/-! ## What a report says of the new events and of the fault bits -/

/-- The ERR events of a report are its one error, or none. -/
theorem Reports.filter_newEvents (h : Reports s r t) : (newEvents s t).filter Event.isErr = r.error?.toList := by
  cases h with
  | noError hfault hevents hquiet =>
    rw [newEvents_of_events_eq hevents]
    exact List.filter_eq_nil_iff.mpr fun e he => by simp [hquiet e he]
  | usageFault f =>
    rw [newEvents_of_events_eq (State.raiseUsageFault_events s f)]
    rfl
  | decodeError u e =>
    rw [newEvents_of_events_eq (State.answerCandidate_events s u (.err e))]
    rfl

theorem Reports.error?_of_mem {u : Src} {code : Byte} {info : Info} (h : Reports s r t)
    (herr : .err u code info ∈ newEvents s t) : r.error? = some (.err u code info) := by
  rw [← Option.mem_toList, ← h.filter_newEvents]
  exact List.mem_filter.mpr ⟨herr, rfl⟩

theorem Reports.countP_isErr_le_one (h : Reports s r t) : (newEvents s t).countP Event.isErr ≤ 1 := by
  rw [List.countP_eq_length_filter, h.filter_newEvents]
  cases r.error? <;> simp

/-- No report clears a fault bit (R243). -/
theorem Reports.keeps_fault_bits (h : Reports s r t) : s.fault &&& t.fault = s.fault := by
  cases h with
  | noError hfault _ _ => rw [hfault, BitVec.and_self]
  | usageFault f => rw [State.raiseUsageFault_fault]; ext j; simpa using Or.inl
  | decodeError u e => rw [State.answerCandidate_fault, BitVec.and_self]

/-! ## The report of an operation -/

variable {i : Instr}

/-- An operation that leaves the fault bits and emits events none of which is an ERR. -/
theorem ReportsAsNamed.of_emit {es : List Event} (hfault : t.fault = s.fault) (hevents : t.events = s.events ++ es)
    (hquiet : ∀ e ∈ es, e.isErr = false) : ReportsAsNamed i s t :=
  ⟨.noError, .noError i, .noError hfault hevents hquiet⟩

/-- An operation that emits nothing and leaves the fault bits. -/
theorem ReportsAsNamed.of_silent (hfault : t.fault = s.fault) (hevents : t.events = s.events) : ReportsAsNamed i s t :=
  .of_emit hfault (hevents.trans (List.append_nil _).symm) (by simp)

theorem ReportsAsNamed.of_usageFault {f : UsageFault} (hmay : MayReport i (.usageFault f)) :
    ReportsAsNamed i s (s.raiseUsageFault f) := ⟨_, hmay, .usageFault f⟩

/-- An operation that completes a candidate reports its decode error, or the frame it holds and no error. -/
theorem ReportsAsNamed.of_candidate {u : RxSrc} (hmay : ∀ e, MayReport i (.decodeError u e)) (r : DecodeResult) :
    ReportsAsNamed i s (s.answerCandidate u r) := by
  cases r with
  | ok c p =>
    exact .of_emit (s.answerCandidate_fault u _) (s.answerCandidate_events u _) (by simp [decodeEvent, Event.isErr])
  | err e => exact ⟨_, hmay e, .decodeError u e⟩

/-- Only the last byte of a candidate can come to an error (R191 to R196). -/
theorem syncTransition_reportsAsNamed (st : SyncState) {b : Byte} (h : syncTransition st b s = .next t) :
    ReportsAsNamed (.syncByte b) s t := by
  cases st with
  | seeking =>
    simp only [syncTransition, syncSeeking] at h
    split at h
    · obtain ⟨-, rfl⟩ := syncAppend_eq_next h
      exact .of_silent rfl rfl
    · cases h
      exact .of_silent rfl rfl
  | length | command | data | crcHigh =>
    obtain ⟨-, rfl⟩ := syncAppend_eq_next h
    exact .of_silent rfl rfl
  | crcLow =>
    obtain ⟨-, rfl⟩ := syncAppend_eq_next h
    exact .of_candidate (.syncByte b) (frameDecode (s.sync.buf ++ [b]))

/-- R245 for operations: one that completes comes to one of the reports the rule names for it. -/
theorem exec_reportsAsNamed (h : exec i s = .next t) : ReportsAsNamed i s t := by
  cases i with
  | ckByte b =>
    cases he : s.ck.empty with
    | true => cases (exec_ckByte_of_empty he b).symm.trans h; exact .of_silent rfl rfl
    | false => cases (exec_ckByte_of_nonempty he b).symm.trans h; exact .of_silent rfl rfl
  | ckRead =>
    cases he : s.ck.empty with
    | true => cases (exec_ckRead_of_empty he).symm.trans h; exact .of_usageFault .ckRead
    | false => cases (exec_ckRead_of_nonempty he).symm.trans h; exact .of_emit rfl rfl (by simp [Event.isErr])
  | encLen l =>
    by_cases hst : s.enc.state = .idle
    · cases (exec_encLen_of_idle hst l).symm.trans h; exact .of_silent rfl rfl
    · cases (exec_encLen_of_not_idle hst l).symm.trans h; exact .of_usageFault (.encLen l)
  | encCmd c =>
    by_cases hst : s.enc.state = .haveLen
    · by_cases hl : s.enc.len = 0#8
      · cases (exec_encCmd_of_len_eq_zero hst hl c).symm.trans h
        exact .of_emit rfl rfl (by simp [checksumTx, Event.isErr])
      · cases (exec_encCmd_of_len_ne_zero hst hl c).symm.trans h
        exact .of_emit rfl rfl (by simp [Event.isErr])
    · cases (exec_encCmd_of_not_haveLen hst c).symm.trans h; exact .of_usageFault (.encCmd c)
  | encData d =>
    by_cases hst : s.enc.state = .payload
    · by_cases hr : s.enc.rem.toNat = 1
      · cases (exec_encData_of_rem_eq_one hst hr d).symm.trans h
        exact .of_emit rfl rfl (by simp [checksumTx, Event.isErr])
      · cases (exec_encData_of_rem_ne_one hst hr d).symm.trans h
        exact .of_emit rfl rfl (by simp [Event.isErr])
    · cases (exec_encData_of_not_payload hst d).symm.trans h; exact .of_usageFault (.encData d)
  | decByte b =>
    by_cases hroom : s.dec.n < 260
    · cases (exec_decByte_of_lt hroom b).symm.trans h; exact .of_silent rfl rfl
    · cases (exec_decByte_of_full (Nat.le_of_not_lt hroom) b).symm.trans h; exact .of_usageFault (.decByte b)
  | decEnd =>
    cases (exec_decEnd s).symm.trans h
    exact .of_candidate .decEnd (frameDecode s.dec.buf)
  | syncByte b =>
    exact syncTransition_reportsAsNamed s.sync.state ((execSyncByte_eq_syncTransition b s).symm.trans h)
  | statRead =>
    cases (exec_statRead s).symm.trans h
    exact .of_emit rfl rfl (by simp [Event.isErr])
  | ckClr | encAbort | decClr | syncAbort => cases h; exact .of_silent rfl rfl

/-! ## The report of a step -/

/-- A step is the reset, which emits nothing, or takes its input and comes to one report. -/
theorem step_reports (h : step s = .next t) :
    (s.input.head? = some .reset ∧ newEvents s t = []) ∨ ∃ r, Reports (s.withInput s.input.tail) r t := by
  obtain ⟨-, hstep⟩ | ⟨rest, hin, hstep⟩ | ⟨w, rest, i, hin, -, hstep⟩ | ⟨w, rest, _, hin, -, hstep⟩ := step_cases s
  · cases hstep.symm.trans h
    exact .inr ⟨.noError, .noError rfl (List.append_nil _).symm (by simp)⟩
  · cases hstep.symm.trans h
    exact .inl ⟨by rw [hin]; rfl, newEvents_of_events_eq (List.append_nil s.events).symm⟩
  · obtain ⟨r, -, hr⟩ := exec_reportsAsNamed (hstep.symm.trans h)
    exact .inr ⟨r, by rw [hin]; exact hr⟩
  · cases hstep.symm.trans h
    exact .inr ⟨.usageFault (.illegalOp w), by rw [hin]; exact .usageFault (.illegalOp w)⟩

/-- A step with a new ERR event is the one report of that event. -/
theorem step_reports_of_mem {u : Src} {code : Byte} {info : Info} (h : step s = .next t)
    (herr : .err u code info ∈ newEvents s t) :
    ∃ r, Reports (s.withInput s.input.tail) r t ∧ r.error? = some (.err u code info) := by
  obtain ⟨-, hnone⟩ | ⟨r, hr⟩ := step_reports h
  · rw [hnone] at herr
    exact absurd herr List.not_mem_nil
  · exact ⟨r, hr, hr.error?_of_mem herr⟩

end

/-! ## The fault register read by no operation but STAT_READ -/

theorem unitOf_ne_ctrl {i : Instr} (h : i ≠ .statRead) : unitOf i ≠ .ctrl := by
  cases i with
  | statRead => exact absurd rfl h
  | _ => exact Src.noConfusion

/-- The fault bits are no element of a unit other than CTRL (R27). -/
theorem sameUnit_set_fault {u : Src} (hu : u ≠ .ctrl) (s : State) (f : BitVec 4) :
    sameUnit u s { s with fault := f } := by
  cases u with
  | ctrl => exact absurd rfl hu
  | ck | enc | dec | sync => rfl

/-- An action at another fault register differs only in that register. -/
theorem State.report_withUnitOf_set_fault (s v : State) (u : Src) (f m : BitVec 4) (new : List Event) :
    (({ s with fault := f } : State).withUnitOf u v).report new m =
      { (s.withUnitOf u v).report new m with fault := f ||| m } := by
  cases u <;> rfl

/-- An operation other than STAT_READ does the same with any other fault register (R27, R243). -/
theorem exec_set_fault {i : Instr} {s t : State} (hi : i ≠ .statRead) (h : exec i s = .next t) :
    ∃ m : BitVec 4, t.fault = s.fault ||| m ∧
      ∀ f : BitVec 4, exec i { s with fault := f } = .next { t with fault := f ||| m } := by
  obtain ⟨new, m, ht, hact⟩ := (exec_actsOn i h).exists_report h
  refine ⟨m, ?_, fun f => ?_⟩
  · rw [ht, State.report_fault, State.withUnitOf_fault]
  · rw [hact _ (sameUnit_set_fault (unitOf_ne_ctrl hi) s f), State.report_withUnitOf_set_fault, ← ht]

/-! ## The obligations -/

/-- Settles O47: the report of the step is the usage fault, no report clears a bit, and no operation but STAT_READ reads
the bits. -/
theorem usageFaultIsPrecise : Obligations.UsageFaultIsPrecise := by
  refine ⟨fun s t u code info h herr hcode => ?precise, fun s t hreset h => ?sticky, fun i s t => exec_set_fault⟩
  case precise =>
    obtain ⟨r, hr, herror⟩ := step_reports_of_mem h herr
    cases hr with
    | noError _ _ _ => cases herror
    | usageFault f =>
      cases herror
      obtain ⟨k, hk, hval, hmask⟩ := f.exists_bit
      exact ⟨k, hk, hval, by rw [← hmask]; rfl⟩
    | decodeError v e =>
      cases herror
      have := e.code_bounds
      omega
  case sticky =>
    obtain ⟨hhead, -⟩ | ⟨r, hr⟩ := step_reports h
    · exact absurd hhead hreset
    · exact hr.keeps_fault_bits

/-- Settles O48: the report of the step is the decode error. -/
theorem decodeErrorSetsNoFaultBit : Obligations.DecodeErrorSetsNoFaultBit := by
  intro s t u code info h herr hcode
  obtain ⟨r, hr, herror⟩ := step_reports_of_mem h herr
  cases hr with
  | noError _ _ _ => cases herror
  | usageFault f =>
    cases herror
    obtain ⟨k, -, hval, -⟩ := f.exists_bit
    omega
  | decodeError v e =>
    cases herror
    cases v with
    | dec => exact ⟨rfl, .inl ⟨rfl, rfl, rfl⟩, rfl, rfl⟩
    | sync => exact ⟨rfl, .inr ⟨rfl, rfl, rfl⟩, rfl, rfl⟩

/-- Settles O49: a report has at most one error, that of an illegal word is R231's, and that of an operation is named
for it. -/
theorem atMostOneErrorPerOperation : Obligations.AtMostOneErrorPerOperation := by
  refine ⟨fun s t h => ?count, fun s t w rest u code info hin hdec h herr => ?illegal,
    fun i s t u code info h herr => ⟨?unit, ?named⟩⟩
  case count =>
    obtain ⟨-, hnone⟩ | ⟨r, hr⟩ := step_reports h
    · rw [hnone]
      exact Nat.zero_le 1
    · exact hr.countP_isErr_le_one
  case illegal =>
    cases hd : decode w with
    | instr i => exact absurd hd (hdec i)
    | illegal r =>
      cases (step_of_illegal hin hd).symm.trans h
      have herror := (Reports.usageFault (.illegalOp w)).error?_of_mem herr
      cases herror
      exact ⟨rfl, rfl, rfl⟩
  case unit =>
    obtain ⟨new, hnew, hsrc⟩ := exec_emitsOnly h
    rw [newEvents_of_events_eq hnew] at herr
    exact hsrc _ herr
  case named =>
    obtain ⟨r, hmay, hr⟩ := exec_reportsAsNamed h
    have herror := hr.error?_of_mem herr
    cases hmay with
    | noError _ => cases herror
    | ckRead | encLen _ | encCmd _ | encData _ | decByte _ => cases herror; rfl
    | decEnd e | syncByte _ e => cases herror; exact e.code_bounds

end Sys2Proof.Machine
end

section
/-! The reset input (70_reset_and_hazards.md R270), and what no other input does: clear a fault bit (10_state.md R24). -/

namespace Sys2Proof.Machine

/-- The step with a reset next takes it and resets the block, whatever was in progress. -/
theorem step_of_reset {s : State} {rest : List Input} (hin : s.input = .reset :: rest) :
    step s = .next (s.withInput rest).resetBlock := by
  rw [step, takeInput_eq_some.mpr ⟨rest, hin, rfl⟩]

/-- After the reset input the STATUS word is that of the machine after reset: of all elements, only the model's own
record of output and input is kept from before. -/
theorem statusWord_resetBlock (s : State) : statusWord s.resetBlock = statusWord State.reset := rfl

theorem statusWord_reset : statusWord State.reset = 0x0010#16 := by decide

/-- Settles O2: the step is `resetBlock`, whose elements are the canonical units; that every other step keeps the fault
bits is the sticky part of R243. -/
theorem resetInputRestoresEveryElement : Obligations.ResetInputRestoresEveryElement := by
  obtain ⟨-, hsticky, -⟩ := usageFaultIsPrecise
  refine ⟨fun s rest hin => ⟨(s.withInput rest).resetBlock, step_of_reset hin, ?_⟩, hsticky⟩
  rw [State.resetBlock_ck, State.resetBlock_enc, State.resetBlock_dec, State.resetBlock_sync]
  exact ⟨rfl, rfl, rfl, rfl, rfl, rfl, rfl, bufRead_nil, rfl, rfl, rfl, rfl, bufRead_nil, State.resetBlock_fault _,
    (statusWord_resetBlock _).trans statusWord_reset, State.resetBlock_events _, State.resetBlock_input _⟩

end Sys2Proof.Machine
end

section
/-! The invariant of the four units (10_state.md R30, R31) along every run. An operation keeps the invariant of the unit
it is addressed to by its own rule, and those of the other units by leaving them as they are (R27); a step under the
invariant completes and keeps it; so every run from reset ends in a state that has it. -/

namespace Sys2Proof.Machine

section Invariant

variable {s t : State} {i : Instr}

/-! ## One operation -/

/-- A byte makes CK non-empty, and a clear leaves the accumulator 0 (R110, R111). -/
theorem exec_keeps_ckInv (hinv : s.ck.inv = true) (h : exec i s = .next t) : t.ck.inv = true := by
  by_cases hi : unitOf i = .ck
  · cases i with
    | ckClr => cases h; rfl
    | ckByte b =>
      cases he : s.ck.empty with
      | true => cases (exec_ckByte_of_empty he b).symm.trans h; rfl
      | false => cases (exec_ckByte_of_nonempty he b).symm.trans h; rfl
    | ckRead =>
      cases he : s.ck.empty with
      | true => cases (exec_ckRead_of_empty he).symm.trans h; exact hinv
      | false => cases (exec_ckRead_of_nonempty he).symm.trans h; exact hinv
    | _ => cases hi
  · obtain ⟨hck, -⟩ := (exec_actsOn i h).frame h
    rw [hck hi, hinv]

/-- ENC_LEN leaves the rest of the idle encoder, ENC_CMD of a frame with a payload has all of it to come, ENC_DATA counts
it down to the last byte, and a completed frame or an abort leaves the idle encoder (R133 to R136). -/
theorem exec_keeps_encInv (hinv : s.enc.inv = true) (h : exec i s = .next t) : t.enc.inv = true := by
  by_cases hi : unitOf i = .enc
  · cases i with
    | encLen l =>
      by_cases hst : s.enc.state = .idle
      · cases (exec_encLen_of_idle hst l).symm.trans h
        obtain ⟨-, hrem, hacc⟩ := (EncUnit.inv_idle hst).mp hinv
        exact (EncUnit.inv_haveLen rfl).mpr ⟨hrem, hacc⟩
      · cases (exec_encLen_of_not_idle hst l).symm.trans h; exact hinv
    | encCmd c =>
      by_cases hst : s.enc.state = .haveLen
      · by_cases hl : s.enc.len = 0#8
        · cases (exec_encCmd_of_len_eq_zero hst hl c).symm.trans h; rfl
        · cases (exec_encCmd_of_len_ne_zero hst hl c).symm.trans h
          have hpos : s.enc.len.toNat ≠ 0 := fun h0 => hl (BitVec.eq_of_toNat_eq h0)
          exact (EncUnit.inv_payload rfl).mpr ⟨Nat.pos_of_ne_zero hpos, Nat.le_refl _⟩
      · cases (exec_encCmd_of_not_haveLen hst c).symm.trans h; exact hinv
    | encData d =>
      by_cases hst : s.enc.state = .payload
      · by_cases hr : s.enc.rem.toNat = 1
        · cases (exec_encData_of_rem_eq_one hst hr d).symm.trans h; rfl
        · cases (exec_encData_of_rem_ne_one hst hr d).symm.trans h
          obtain ⟨hpos, hle⟩ := (EncUnit.inv_payload hst).mp hinv
          have hdec : (s.enc.rem - 1#8).toNat = s.enc.rem.toNat - 1 := by bv_omega
          exact (EncUnit.inv_payload (u := { s.enc with rem := s.enc.rem - 1#8, acc := ckStep s.enc.acc d }) hst).mpr
            ⟨by rw [hdec]; omega, hdec.trans_le ((Nat.sub_le _ _).trans hle)⟩
      · cases (exec_encData_of_not_payload hst d).symm.trans h; exact hinv
    | encAbort => cases h; rfl
    | _ => cases hi
  · obtain ⟨-, henc, -⟩ := (exec_actsOn i h).frame h
    rw [henc hi, hinv]

/-- DEC_BYTE appends only where there is room, and the other two empty the buffer (R170 to R172). -/
theorem exec_keeps_decInv (hinv : s.dec.inv = true) (h : exec i s = .next t) : t.dec.inv = true := by
  by_cases hi : unitOf i = .dec
  · cases i with
    | decByte b =>
      by_cases hroom : s.dec.n < 260
      · cases (exec_decByte_of_lt hroom b).symm.trans h
        exact Memory.wf_bufAppend (bufAppend_of_lt hroom b)
      · cases (exec_decByte_of_full (Nat.le_of_not_lt hroom) b).symm.trans h; exact hinv
    | decEnd | decClr => cases h; exact Memory.wf_nil
    | _ => cases hi
  · obtain ⟨-, -, hdec, -⟩ := (exec_actsOn i h).frame h
    rw [hdec hi, hinv]

/-- Every operation keeps the invariant of the four units. -/
theorem exec_keeps_inv (hinv : s.inv = true) (h : exec i s = .next t) : t.inv = true := by
  obtain ⟨hck, henc, hdec, hsync⟩ := (State.inv_iff s).mp hinv
  exact (State.inv_iff t).mpr
    ⟨exec_keeps_ckInv hck h, exec_keeps_encInv henc h, exec_keeps_decInv hdec h, exec_keeps_syncInv hsync h⟩

/-! ## One step -/

/-- What the host has still to issue is no element of the units. -/
@[simp] theorem State.inv_withInput (s : State) (is : List Input) : (s.withInput is).inv = s.inv := rfl

/-- A usage fault leaves the units as they are (R243). -/
@[simp] theorem State.inv_raiseUsageFault (s : State) (u : UsageFault) : (s.raiseUsageFault u).inv = s.inv := rfl

/-- Reset leaves the canonical units (R270). -/
@[simp] theorem State.inv_resetBlock (s : State) : s.resetBlock.inv = true := (State.inv_iff _).mpr canonical_inv

/-- A step under the invariant completes, in a state that has it again (R204, R279). -/
theorem step_next_inv (hinv : s.inv = true) : ∃ t, step s = .next t ∧ t.inv = true := by
  obtain ⟨-, hstep⟩ | ⟨rest, -, hstep⟩ | ⟨w, rest, i, -, -, hstep⟩ | ⟨w, rest, _, -, -, hstep⟩ := step_cases s
  · exact ⟨s, hstep, hinv⟩
  · exact ⟨_, hstep, State.inv_resetBlock _⟩
  · have hinv' : (s.withInput rest).inv = true := (State.inv_withInput s rest).trans hinv
    obtain ⟨-, -, -, hsync⟩ := (State.inv_iff _).mp hinv'
    obtain ⟨t, ht⟩ := exec_completes i hsync
    exact ⟨t, hstep.trans ht, exec_keeps_inv hinv' ht⟩
  · exact ⟨_, hstep, (State.inv_raiseUsageFault _ (.illegalOp w)).trans hinv⟩

/-! ## A run -/

/-- Any number of steps under the invariant complete, in a state that has it. -/
theorem steps_next_inv (k : Nat) (hinv : s.inv = true) : ∃ t, steps k s = .next t ∧ t.inv = true := by
  induction k generalizing s with
  | zero => exact ⟨s, rfl, hinv⟩
  | succ k ih =>
    obtain ⟨s', hs', hinv'⟩ := step_next_inv hinv
    obtain ⟨t, ht, htinv⟩ := ih hinv'
    exact ⟨t, by rw [steps, hs']; exact ht, htinv⟩

end Invariant

/-! ## The obligations -/

/-- Settles O3. -/
theorem invariantHoldsAtReset : Obligations.InvariantHoldsAtReset := (State.inv_iff _).mpr canonical_inv

/-- Settles O4. -/
theorem everyStepKeepsInvariant : Obligations.EveryStepKeepsInvariant := by
  intro s t hinv h
  obtain ⟨t', ht', hinv'⟩ := step_next_inv hinv
  cases ht'.symm.trans h
  exact hinv'

/-- Settles O6. -/
theorem everyStepCompletesUnderInvariant : Obligations.EveryStepCompletesUnderInvariant := fun _ hinv =>
  let ⟨t, ht, _⟩ := step_next_inv hinv
  ⟨t, ht⟩

/-- Settles O5: the run ends under the invariant, and the tables are its rows, state by state. -/
theorem reachableStatesSatisfyTables : Obligations.ReachableStatesSatisfyTables := by
  intro is
  obtain ⟨t, hrun, hinv⟩ := steps_next_inv is.length (s := State.reset.issue is) invariantHoldsAtReset
  obtain ⟨hck, henc, hdec, hsync⟩ := (State.inv_iff t).mp hinv
  refine ⟨t, hrun, ?syncRow, ?syncRoom, ?encRow, DecUnit.inv_iff.mp hdec, CkUnit.inv_iff.mp hck⟩
  case syncRoom => exact Nat.le_of_lt_succ (SyncUnit.room_of_inv hsync)
  case syncRow =>
    split
    case h_1 hst =>
      obtain ⟨hbuf, hrest⟩ := (SyncUnit.inv_seeking hst).mp hsync
      exact ⟨congrArg List.length hbuf, hrest⟩
    case h_2 hst =>
      obtain ⟨hbuf, -⟩ := (SyncUnit.inv_length hst).mp hsync
      exact ⟨congrArg List.length hbuf, congrArg (bufRead · 0) hbuf⟩
    case h_3 hst =>
      obtain ⟨hbuf, -⟩ := (SyncUnit.inv_command hst).mp hsync
      exact ⟨congrArg List.length hbuf, congrArg (bufRead · 0) hbuf, congrArg (bufRead · 1) hbuf⟩
    case h_4 hst =>
      obtain ⟨hn, -, hlen⟩ := (SyncUnit.inv_data hst).mp hsync
      exact ⟨hn, hlen⟩
    case h_5 hst =>
      obtain ⟨hn, -, hcnt⟩ := (SyncUnit.inv_crcHigh hst).mp hsync
      exact ⟨hn, hcnt⟩
    case h_6 hst =>
      obtain ⟨hn, -, hcnt⟩ := (SyncUnit.inv_crcLow hst).mp hsync
      exact ⟨hn, hcnt⟩
  case encRow =>
    split
    case h_1 hst => exact (EncUnit.inv_idle hst).mp henc
    case h_2 hst => exact (EncUnit.inv_haveLen hst).mp henc
    case h_3 hst => exact (EncUnit.inv_payload hst).mp henc

end Sys2Proof.Machine
end

section
/-! Operation words and the step (30_encoding.md R80 to R82, 44_control.md R232): the encoder is the decoder's inverse on
both sides, and what a step with a legal word, or with none, does. -/

namespace Sys2Proof

theorem decodeNoArg_eq_instr {i j : Instr} {op arg : Byte} (h : decodeNoArg j op arg = .instr i) :
    arg = 0#8 ∧ j = i := by
  unfold decodeNoArg at h
  split at h
  · next harg => exact ⟨harg, Decoded.instr.inj h⟩
  · cases h

/-- Each row of the opcode map (R81), read forward: the operation has the opcode and the argument it was read from. -/
theorem fields_of_decodeFields {op arg : Byte} {i : Instr} (h : decodeFields op arg = .instr i) :
    i.opcode = op ∧ i.argument = arg := by
  unfold decodeFields at h
  split at h
  case h_14 => cases h
  case h_2 | h_4 | h_5 | h_6 | h_8 | h_11 => cases h; exact ⟨rfl, rfl⟩
  all_goals
    obtain ⟨rfl, rfl⟩ := decodeNoArg_eq_instr h
    exact ⟨rfl, rfl⟩

/-- No bit of a legal word is dropped (R82). -/
theorem encode_of_decode {w : Word} {i : Instr} (h : decode w = .instr i) : encode i = w := by
  obtain ⟨hop, harg⟩ := fields_of_decodeFields h
  rw [encode, hop, harg, opWord_fields]

end Sys2Proof

namespace Sys2Proof.Machine

/-- Settles O13. -/
theorem decodeInvertsEncode : Obligations.DecodeInvertsEncode :=
  ⟨fun i _ => decode_encode i, fun _ _ => encode_of_decode⟩

/-- Settles O7. -/
theorem stepRunsDecodedOperation : Obligations.StepRunsDecodedOperation := fun _ _ _ _ hin hdec _ =>
  step_of_instr hin hdec

/-- Settles O8. -/
theorem stepWithoutInputWaits : Obligations.StepWithoutInputWaits := by
  intro s hin
  rw [step, takeInput_eq_none.mpr hin]

/-- Settles O12: each word, written in binary, is the encoding of its operation. -/
theorem sampleWordsDecode : Obligations.SampleWordsDecode :=
  ⟨decode_encode (.ckByte 0x2A), decode_encode (.encCmd 0x1B), decode_encode .decEnd, decode_encode (.syncByte 0xFF),
    decode_encode .statRead⟩

end Sys2Proof.Machine
end

section
/-! The text of an operation (30_encoding.md R86) through the assembler: a run of plain characters is one token, the two
hexadecimal digits of a byte are read back as the byte, and a mnemonic names its operation. -/

namespace Sys2Proof.Machine

/-! ## Tokens -/

/-- A character that neither separates tokens nor begins a comment (log entry 13). -/
def plainChar (c : Char) : Bool := !([';', ' ', '\t', ',', '[', ']'].contains c)

theorem lex_cons_of_plainChar {c : Char} (h : plainChar c = true) (cs cur : List Char) :
    lex (c :: cs) cur = lex cs (c :: cur) := by
  simp only [plainChar, Bool.not_eq_true', List.contains_eq_mem, decide_eq_false_iff_not, List.mem_cons,
    List.not_mem_nil, or_false, not_or] at h
  simp [lex, h]

theorem lex_append_of_plainChar {m : List Char} (h : ∀ c ∈ m, plainChar c = true) (cs cur : List Char) :
    lex (m ++ cs) cur = lex cs (m.reverse ++ cur) := by
  induction m generalizing cur with
  | nil => rfl
  | cons c m ih =>
    obtain ⟨hc, hm⟩ := List.forall_mem_cons.mp h
    rw [List.cons_append, lex_cons_of_plainChar hc, ih hm, List.reverse_cons, List.append_assoc]
    rfl

theorem flushText_reverse {m : List Char} (h : m ≠ []) (ts : List Token) : flushText m.reverse ts = .text m :: ts := by
  rw [flushText, if_neg (mt List.reverse_eq_nil_iff.mp h), List.reverse_reverse]

/-- A run of plain characters at the end of a line is one token. -/
theorem lex_of_plainChar {m : List Char} (h : ∀ c ∈ m, plainChar c = true) (hne : m ≠ []) :
    lex m [] = [.text m] := by
  have hlex := lex_append_of_plainChar h [] []
  rw [List.append_nil, List.append_nil] at hlex
  rw [hlex, lex, flushText_reverse hne]

/-- A run of plain characters before a space is one token. -/
theorem lex_append_space {m : List Char} (h : ∀ c ∈ m, plainChar c = true) (hne : m ≠ []) (cs : List Char) :
    lex (m ++ ' ' :: cs) [] = .text m :: lex cs [] := by
  rw [lex_append_of_plainChar h, List.append_nil]
  exact flushText_reverse hne (lex cs [])

/-! ## A byte argument -/

theorem plainChar_hexChar : ∀ n < 16, plainChar (hexChar n) = true := by decide

theorem hexDigit_hexChar : ∀ n < 16, hexDigit (hexChar n) = some n := by decide

theorem plainChar_byteText (b : Byte) : ∀ c ∈ byteText b, plainChar c = true := by
  have hhi := plainChar_hexChar (b.toNat / 16) (Nat.div_lt_of_lt_mul b.isLt)
  have hlo := plainChar_hexChar (b.toNat % 16) (Nat.mod_lt _ (by decide))
  simpa [byteText, hhi, hlo] using ⟨by decide, by decide⟩

/-- The two digits of a byte, read back. -/
theorem byteLiteral_byteText (b : Byte) : byteLiteral (byteText b) = some b := by
  have hhi := hexDigit_hexChar (b.toNat / 16) (Nat.div_lt_of_lt_mul b.isLt)
  have hlo := hexDigit_hexChar (b.toNat % 16) (Nat.mod_lt _ (by decide))
  have hnum : hexNumber 2 (byteText b) = some b.toNat := by
    simp [hexNumber, byteText, digitsFrom, hhi, hlo, Nat.div_add_mod]
  unfold byteLiteral
  rw [hnum]
  exact congrArg some (BitVec.eq_of_toNat_eq (Nat.mod_eq_of_lt b.isLt))

/-! ## Mnemonics -/

theorem plainChar_mnemonic (i : Instr) : ∀ c ∈ mnemonic i, plainChar c = true := by
  have hall : (mnemonic i).all plainChar = true := by cases i <;> rfl
  exact List.all_eq_true.mp hall

theorem mnemonic_ne_nil (i : Instr) : mnemonic i ≠ [] := by
  cases i <;> exact List.cons_ne_nil _ _

/-- No mnemonic is the directive `.word`. -/
theorem mnemonic_ne_directive (i : Instr) : mnemonic i ≠ ".word".toList := by
  refine of_decide_eq_false ?_
  cases i <;> rfl

theorem argOp_mnemonic {i : Instr} (h : takesArgument i.opcode = true) :
    argOp (mnemonic i) i.argument = some i := by
  cases i with
  | ckByte _ | encLen _ | encCmd _ | encData _ | decByte _ | syncByte _ => rfl
  | _ => cases h

theorem noArgOp_mnemonic {i : Instr} (h : takesArgument i.opcode = false) : noArgOp (mnemonic i) = some i := by
  cases i with
  | ckByte _ | encLen _ | encCmd _ | encData _ | decByte _ | syncByte _ => cases h
  | _ => rfl

/-! ## Lines -/

theorem assembleLine_of_parse {cs : List Char} {i : Instr} (hne : lex cs [] ≠ [])
    (hparse : parseTokens (lex cs []) = some (.op i)) : assembleLine cs = some [encode i] := by
  unfold assembleLine
  split
  · next h => exact absurd h hne
  · rw [hparse]; rfl

theorem parseTokens_mnemonic {i : Instr} (h : takesArgument i.opcode = false) :
    parseTokens [.text (mnemonic i)] = some (.op i) := by
  rw [parseTokens, noArgOp_mnemonic h]
  rfl

theorem parseTokens_mnemonic_byteText {i : Instr} (h : takesArgument i.opcode = true) :
    parseTokens [.text (mnemonic i), .text (byteText i.argument)] = some (.op i) := by
  rw [parseTokens, if_neg (mnemonic_ne_directive i), byteLiteral_byteText]
  simp only [argOp_mnemonic h, Option.map_some]

theorem lex_render_of_noArgument {i : Instr} (h : takesArgument i.opcode = false) :
    lex (render i) [] = [.text (mnemonic i)] := by
  rw [render, operandText, h, if_neg Bool.false_ne_true, List.append_nil,
    lex_of_plainChar (plainChar_mnemonic i) (mnemonic_ne_nil i)]

theorem lex_render_of_argument {i : Instr} (h : takesArgument i.opcode = true) :
    lex (render i) [] = [.text (mnemonic i), .text (byteText i.argument)] := by
  rw [render, operandText, if_pos h, lex_append_space (plainChar_mnemonic i) (mnemonic_ne_nil i),
    lex_of_plainChar (plainChar_byteText _) (List.cons_ne_nil _ _)]

/-! ## The obligations -/

/-- Settles O14, by whether the operation is written with an argument. -/
theorem assembledOperationIsItsWord : Obligations.AssembledOperationIsItsWord := by
  intro i _
  cases h : takesArgument i.opcode with
  | false =>
    have hlex := lex_render_of_noArgument h
    exact assembleLine_of_parse (by simp [hlex]) (hlex ▸ parseTokens_mnemonic h)
  | true =>
    have hlex := lex_render_of_argument h
    exact assembleLine_of_parse (by simp [hlex]) (hlex ▸ parseTokens_mnemonic_byteText h)

/-- Settles O15: the words are the encodings of the operations of the expansion. -/
theorem pseudoOperationsExpand : Obligations.PseudoOperationsExpand := by
  refine ⟨fun cmd p hp => ?send, fun bs => ?feed, fun bs => ?decode, fun _ => rfl⟩
  case send =>
    have hwf : payloadWf p = true := decide_eq_true hp
    rw [Line.words, if_pos hwf, sendOps, List.map_cons, List.map_cons, List.map_map]
    rfl
  case feed =>
    rw [Line.words, feedOps, List.map_map]
    rfl
  case decode =>
    rw [Line.words, decodeOps, List.map_append, List.map_map]
    rfl

end Sys2Proof.Machine
end

section
/-! Candidates and streams that are not one frame: two frames in one candidate (70_reset_and_hazards.md R278), the cells
of the synchronizer's buffer (20_memory.md R50, R51), and a noise byte that looks like the magic byte (43_synchronizer.md
R202). -/

namespace Sys2Proof.Machine

/-! ## Two frames in one candidate -/

/-- The bytes of two frames in a row between the header of the first and the checksum of the second (R70). -/
def betweenFrames (c : Byte) (p : List Byte) (c' : Byte) (p' : List Byte) : List Byte :=
  p ++ [hiByte (frameSum c p), loByte (frameSum c p)] ++ frameBody c' p'

theorem length_betweenFrames (c : Byte) (p : List Byte) (c' : Byte) (p' : List Byte) :
    (betweenFrames c p c' p').length = p.length + p'.length + 5 := by
  simp only [betweenFrames, List.length_append, length_frameBody, List.length_cons, List.length_nil]
  omega

/-- Two frames in a row have the layout of one, with the first header and the second checksum. -/
theorem frameEncode_append_frameEncode (c : Byte) (p : List Byte) (c' : Byte) (p' : List Byte) :
    frameEncode c p ++ frameEncode c' p' = [Config.magic, byteOfNat p.length, c] ++ betweenFrames c p c' p' ++
      [hiByte (frameSum c' p'), loByte (frameSum c' p')] := by
  simp only [frameEncode_eq, frameBody, betweenFrames, List.append_assoc]

/-- Settles O32: between the first header and the second checksum lie more bytes than the first length byte says. -/
theorem twoFramesInOneCandidateFail : Obligations.TwoFramesInOneCandidateFail := by
  intro c c' p p' hfit
  have hlength : (byteOfNat p.length).toNat ≠ (betweenFrames c p c' p').length := by
    rw [toNat_byteOfNat (by omega), length_betweenFrames]
    omega
  rw [frameEncode_append_frameEncode, frameDecode_of_length_ne hlength, length_betweenFrames]
  rfl

/-! ## The cells of the synchronizer's buffer -/

/-- A byte that SYNC would store in a full buffer stops the model (log entry 5). -/
theorem exec_syncByte_of_full {s : State} {b : Byte} (hfull : 260 ≤ s.sync.n)
    (hmagic : s.sync.state = .seeking → b = Config.magic) : exec (.syncByte b) s = .fault .syncBufferOverrun := by
  have hstop (k : Memory → State) : syncAppend b s k = .fault .syncBufferOverrun :=
    syncAppend_eq_fault.mpr ⟨hfull, rfl⟩
  cases hst : s.sync.state with
  | seeking => exact ((exec_syncByte_eq hst b).trans (if_pos (hmagic hst))).trans (hstop _)
  | length | command | data | crcHigh | crcLow => exact (exec_syncByte_eq hst b).trans (hstop _)

/-- Settles O38: a byte that is stored found room, since a full buffer stops the model, and is appended. -/
theorem syncBufferFrame : Obligations.SyncBufferFrame := by
  refine ⟨fun s t b h hlast hmagic => ?cells, fun s b hfull hmagic => exec_syncByte_of_full hfull hmagic⟩
  have hroom : s.sync.n < 260 := by
    by_contra hfull
    cases (exec_syncByte_of_full (Nat.le_of_not_lt hfull) hmagic).symm.trans h
  obtain ⟨u, hu, hbuf⟩ := exec_syncByte_appends hroom hlast hmagic
  cases hu.symm.trans h
  have hread := bufRead_bufAppend (bufAppend_of_lt hroom b)
  rw [State.withSync_sync, hbuf]
  exact ⟨(hread _).trans (if_pos rfl), fun a ha => (hread a).trans (if_neg ha)⟩

/-! ## A noise byte -/

/-- Settles O44, by running the model. -/
theorem noiseMagicByteMisframes : Obligations.NoiseMagicByteMisframes := by
  have hframe : frameEncode 0x01 [] = [0x2A, 0x00, 0x01, 0x95, 0x09] := by decide
  exact ⟨hframe, by rw [hframe]; rfl⟩

end Sys2Proof.Machine
end

section
/-! How far the output stream grows (20_memory.md R58): the most events an operation and a step can add. -/

namespace Sys2Proof.Machine

/-- The most events an operation emits: a whole frame without a payload (R134), a payload byte with the checksum (R135),
or one (R84). -/
def maxEvents : Instr → Nat
  | .encCmd _ => 5
  | .encData _ => 3
  | _ => 1

theorem maxEvents_le_five (i : Instr) : maxEvents i ≤ 5 := by
  cases i with
  | encCmd _ => exact Nat.le_refl 5
  | encData _ => exact (by decide : 3 ≤ 5)
  | _ => exact (by decide : 1 ≤ 5)

theorem maxEvents_eq_one {i : Instr} (hcmd : ∀ c, i ≠ .encCmd c) (hdata : ∀ d, i ≠ .encData d) : maxEvents i = 1 := by
  cases i with
  | encCmd c => exact absurd rfl (hcmd c)
  | encData d => exact absurd rfl (hdata d)
  | _ => rfl

/-- The output stream grew from `s` to `t` by at most `n` events. -/
def EmitsAtMost (n : Nat) (s t : State) : Prop := ∃ new, t.events = s.events ++ new ∧ new.length ≤ n

section Growth

variable {n : Nat} {s t : State}

theorem EmitsAtMost.of_quiet (h : t.events = s.events) : EmitsAtMost n s t := ⟨[], by simp [h], Nat.zero_le n⟩

theorem EmitsAtMost.of_emit {es : List Event} (h : t.events = s.events ++ es) (hlen : es.length ≤ n) :
    EmitsAtMost n s t := ⟨es, h, hlen⟩

theorem EmitsAtMost.mono {m : Nat} (h : EmitsAtMost m s t) (hle : m ≤ n) : EmitsAtMost n s t :=
  let ⟨new, hnew, hlen⟩ := h
  ⟨new, hnew, hlen.trans hle⟩

/-- The stream of `t` is that of `s` and the new events, which the bound is about. -/
theorem EmitsAtMost.bounds_newEvents (h : EmitsAtMost n s t) :
    t.events = s.events ++ newEvents s t ∧ (newEvents s t).length ≤ n := by
  obtain ⟨new, hnew, hlen⟩ := h
  rw [newEvents_of_events_eq hnew]
  exact ⟨hnew, hlen⟩

/-- SYNC emits on the last byte of a candidate only, and there one event (R196). -/
theorem syncTransition_emitsAtMost (st : SyncState) {b : Byte} (h : syncTransition st b s = .next t) :
    EmitsAtMost 1 s t := by
  cases st with
  | seeking =>
    simp only [syncTransition, syncSeeking] at h
    split at h
    · obtain ⟨-, rfl⟩ := syncAppend_eq_next h
      exact .of_quiet rfl
    · cases h
      exact .of_quiet rfl
  | length | command | data | crcHigh =>
    obtain ⟨-, rfl⟩ := syncAppend_eq_next h
    exact .of_quiet rfl
  | crcLow =>
    obtain ⟨-, rfl⟩ := syncAppend_eq_next h
    exact .of_emit rfl (Nat.le_refl 1)

theorem exec_emitsAtMost {i : Instr} (h : exec i s = .next t) : EmitsAtMost (maxEvents i) s t := by
  cases i with
  | ckByte b =>
    cases he : s.ck.empty with
    | true => cases (exec_ckByte_of_empty he b).symm.trans h; exact .of_quiet rfl
    | false => cases (exec_ckByte_of_nonempty he b).symm.trans h; exact .of_quiet rfl
  | ckRead =>
    cases he : s.ck.empty with
    | true => cases (exec_ckRead_of_empty he).symm.trans h; exact .of_emit rfl (Nat.le_refl 1)
    | false => cases (exec_ckRead_of_nonempty he).symm.trans h; exact .of_emit rfl (Nat.le_refl 1)
  | encLen l =>
    by_cases hst : s.enc.state = .idle
    · cases (exec_encLen_of_idle hst l).symm.trans h; exact .of_quiet rfl
    · cases (exec_encLen_of_not_idle hst l).symm.trans h; exact .of_emit rfl (Nat.le_refl 1)
  | encCmd c =>
    by_cases hst : s.enc.state = .haveLen
    · by_cases hl : s.enc.len = 0#8
      · cases (exec_encCmd_of_len_eq_zero hst hl c).symm.trans h; exact .of_emit rfl (Nat.le_refl 5)
      · cases (exec_encCmd_of_len_ne_zero hst hl c).symm.trans h; exact .of_emit rfl (by decide : 3 ≤ 5)
    · cases (exec_encCmd_of_not_haveLen hst c).symm.trans h; exact .of_emit rfl (by decide : 1 ≤ 5)
  | encData d =>
    by_cases hst : s.enc.state = .payload
    · by_cases hr : s.enc.rem.toNat = 1
      · cases (exec_encData_of_rem_eq_one hst hr d).symm.trans h; exact .of_emit rfl (Nat.le_refl 3)
      · cases (exec_encData_of_rem_ne_one hst hr d).symm.trans h; exact .of_emit rfl (by decide : 1 ≤ 3)
    · cases (exec_encData_of_not_payload hst d).symm.trans h; exact .of_emit rfl (by decide : 1 ≤ 3)
  | decByte b =>
    by_cases hroom : s.dec.n < 260
    · cases (exec_decByte_of_lt hroom b).symm.trans h; exact .of_quiet rfl
    · cases (exec_decByte_of_full (Nat.le_of_not_lt hroom) b).symm.trans h; exact .of_emit rfl (Nat.le_refl 1)
  | decEnd | statRead => cases h; exact .of_emit rfl (Nat.le_refl 1)
  | syncByte b => exact syncTransition_emitsAtMost s.sync.state ((execSyncByte_eq_syncTransition b s).symm.trans h)
  | ckClr | encAbort | decClr | syncAbort => cases h; exact .of_quiet rfl

/-- A step adds nothing, one ILLEGAL_OP, or what its operation adds. -/
theorem step_emitsAtMost_five (h : step s = .next t) : EmitsAtMost 5 s t := by
  obtain ⟨-, hstep⟩ | ⟨rest, -, hstep⟩ | ⟨w, rest, i, -, -, hstep⟩ | ⟨w, rest, _, -, -, hstep⟩ := step_cases s
  · cases hstep.symm.trans h; exact .of_quiet rfl
  · cases hstep.symm.trans h; exact .of_quiet rfl
  · have hexec : EmitsAtMost (maxEvents i) (s.withInput rest) t := exec_emitsAtMost (hstep.symm.trans h)
    exact EmitsAtMost.mono (s := s) hexec (maxEvents_le_five i)
  · cases hstep.symm.trans h; exact .of_emit rfl (by decide : 1 ≤ 5)

end Growth

/-- Settles O50: the bounds are `maxEvents`, and the tag of an operation's events is its unit's. -/
theorem outputStreamOnlyGrows : Obligations.OutputStreamOnlyGrows := by
  refine ⟨fun s t h => (step_emitsAtMost_five h).bounds_newEvents, fun i s t h => ?_⟩
  obtain ⟨hgrows, hbound⟩ := (exec_emitsAtMost h).bounds_newEvents
  obtain ⟨new, hnew, hsrc⟩ := exec_emitsOnly h
  refine ⟨hgrows, fun hcmd hdata => ?_, ?_⟩
  · rwa [maxEvents_eq_one hcmd hdata] at hbound
  · rwa [newEvents_of_events_eq hnew]

end Sys2Proof.Machine
end

section
/-! The tables of values: the state after reset (70_reset_and_hazards.md R270) and the errors (30_encoding.md R85). -/

namespace Sys2Proof.Machine

/-- Settles O1. -/
theorem resetStateHoldsResetValues : Obligations.ResetStateHoldsResetValues :=
  ⟨rfl, rfl, rfl, rfl, rfl, rfl, rfl, rfl, rfl, rfl, rfl, rfl, statusWord_reset⟩

/-- Settles O46, row by row. -/
theorem errorCodesFollowTable : Obligations.ErrorCodesFollowTable :=
  ⟨fun _ => ⟨rfl, rfl⟩, fun _ _ => ⟨rfl, rfl⟩, fun _ _ => ⟨rfl, rfl⟩, fun _ => ⟨rfl, rfl⟩, rfl, rfl,
    fun _ => ⟨rfl, rfl⟩, fun _ => ⟨rfl, rfl⟩, fun _ => ⟨rfl, rfl⟩⟩

end Sys2Proof.Machine
end
